-- ==== Sys2Proof/Word.lean ====
section
/-! DEFINITION. The machine word (R10) and the address range (R15): nothing here depends on an instruction. -/

namespace Sys2Proof

/-- WORD (R10): a signed 64-bit two's-complement integer. Every memory cell, instruction word, operand, channel
value, `ip`, `rb` and network signal is one. Its value is `toInt`; no rule ever slices, masks or wraps it (R13). -/
abbrev Word := BitVec 64

/-- `INT64_MIN` (R10). -/
abbrev wordMin : Int := -9223372036854775808

/-- `INT64_MAX` (R10). -/
abbrev wordMax : Int := 9223372036854775807

/-- `ADDR_MAX = 2^63 - 1` (R11, R15). -/
abbrev addrMax : Int := 9223372036854775807

/-- `fits64(v)` (R13). -/
abbrev Fits64 (v : Int) : Prop := wordMin ≤ v ∧ v ≤ wordMax

/-- The WORD whose value is `v`; used only where `Fits64 v` is known (R13: no rule wraps). -/
def wordOf (v : Int) : Word := BitVec.ofInt 64 v

end Sys2Proof
end

