-- ==== Sys2Proof/Config.lean ====
section
/-! DEFINITION. The parameters the spec leaves open (R11, OPEN decisions D4, D16, D20, D22). They are plain data that
every state carries and no step changes, so a statement about every state holds for every value of them. The spec
leaves no VALUE undefined, so there is no free value here. -/

namespace Sys2Proof

/-- `RUN_ON_TERMINATED` (R11, R93): what `run` does on a `Terminated` core. -/
inductive RunOnTerminated where
  | noop
  | fault
  deriving DecidableEq, Repr

/-- `NO_OUTPUT_POLICY` (R11, R165): what the network does when a run outputs nothing. -/
inductive NoOutputPolicy where
  | fault
  | keep
  deriving DecidableEq, Repr

/-- The block's parameters with the defaults of R11. `N`, `TOPOLOGY` and `PHASE_SET` are arguments of the host's
commands, and `ADDR_MAX` is fixed. -/
structure Params where
  /-- `MEM_LIMIT` (R43): `none`, memory grows on demand; `some n`, an access at an address `≥ n` faults. -/
  memLimit        : Option Nat := none
  /-- `RUN_ON_TERMINATED` (R93). -/
  runOnTerminated : RunOnTerminated := .noop
  /-- `NO_OUTPUT_POLICY` (R165). -/
  noOutput        : NoOutputPolicy := .fault
  /-- `INITIAL_SIGNAL` (R164). -/
  initialSignal   : Word := 0
  deriving DecidableEq, Repr

end Sys2Proof
end

