-- ==== Sys2Proof/Syntax.lean ====
section
/-! DEFINITION. The syntax of the machine: addressing modes, operands, the ten instructions (R64), and the closed set of
causes a core or the network may report (R191). -/

namespace Sys2Proof

/-- Parameter modes (R63). -/
inductive Mode where
  /-- digit 0: the operand word is the address -/
  | position
  /-- digit 1: the operand word is the value; illegal for a write target -/
  | immediate
  /-- digit 2: the address is the relative base plus the operand word -/
  | relative
  deriving DecidableEq, Repr

/-- One operand: its mode and its full operand WORD (`raw_i`, R16, R66). -/
structure Operand where
  mode : Mode
  raw  : Word
  deriving DecidableEq, Repr

/-- The ten opcodes (R4, R62). -/
inductive Opcode where
  | add | mul | inp | out | jt | jf | lt | eq | arb | halt
  deriving DecidableEq, Repr

/-- The instruction set: one constructor per row of the opcode table (R64), operands in position order 0, 1, 2.
The digits of positions an opcode does not use have no effect (R74) and are not kept. -/
inductive Instr where
  /-- opcode 1, `ADD a, b, d` (R100) -/
  | add (a b d : Operand)
  /-- opcode 2, `MUL a, b, d` (R101) -/
  | mul (a b d : Operand)
  /-- opcode 3, `IN d` (R110) -/
  | inp (d : Operand)
  /-- opcode 4, `OUT a` (R111) -/
  | out (a : Operand)
  /-- opcode 5, `JT a, b` (R120) -/
  | jt (a b : Operand)
  /-- opcode 6, `JF a, b` (R121) -/
  | jf (a b : Operand)
  /-- opcode 7, `LT a, b, d` (R130) -/
  | lt (a b d : Operand)
  /-- opcode 8, `EQ a, b, d` (R131) -/
  | eq (a b d : Operand)
  /-- opcode 9, `ARB a` (R140) -/
  | arb (a : Operand)
  /-- opcode 99, `HALT` (R150) -/
  | halt
  deriving DecidableEq, Repr

/-- A core fault with its information record: the contents of the `cause` register (R28, R191 codes 1 to 7). -/
inductive Cause where
  /-- code 1: the word is negative, or `w mod 100` is no opcode (R192) -/
  | illegalOpcode (w : Word)
  /-- code 2: mode digit `pos` is 3 to 9, or (`pos = 3`) `w ≥ 100000` (R193) -/
  | illegalMode (w : Word) (pos : Nat)
  /-- code 3: the write-target digit at `pos` is 1 (R194) -/
  | immediateWrite (w : Word) (pos : Nat)
  /-- code 4: a fetch, read or write at an address below 0 (R195) -/
  | negativeAddress (a : Int)
  /-- code 5: an access above the capacity, or an advance past `ADDR_MAX` (R196) -/
  | outOfCapacity (a : Int)
  /-- code 6: the exact result of ADD, MUL or ARB is no WORD (R197) -/
  | overflow (op : Opcode) (x y : Word)
  /-- code 7: `run` on a `Terminated` core under `RUN_ON_TERMINATED = fault` (R198) -/
  | runAfterTerminated
  deriving DecidableEq, Repr

/-- What `drive` or `search` reports when it ends in a fault (R191 codes 16 to 18). -/
inductive NetFault where
  /-- code 16: the run of the network's core `i` faulted (R170) -/
  | coreFault (i : Nat) (cause : Cause)
  /-- code 17: the run of core `i` output nothing, under `NO_OUTPUT_POLICY = fault` (R165) -/
  | noSignal (i : Nat)
  /-- code 18: a `drive` with a wrong phase count, with `N < 1`, or on a network already driven (R173) -/
  | configError
  deriving DecidableEq, Repr

/-- Network wiring (R161). -/
inductive Topology where
  | linear
  | loop
  deriving DecidableEq, Repr

end Sys2Proof
end

