-- ==== Sys2Proof/WellFormed.lean ====
section
/-! DEFINITION. Which terms the spec gives a meaning: the checks on syntax that the types do not make. -/

namespace Sys2Proof

/-- A write-target operand is legal in Position or Relative mode only (R72). -/
def Operand.isTarget (d : Operand) : Bool := d.mode != .immediate

/-- An instruction is well formed when its write target, if it has one, is not Immediate (R72, R83). -/
def Instr.wf : Instr → Bool
  | .add _ _ d => d.isTarget
  | .mul _ _ d => d.isTarget
  | .inp d     => d.isTarget
  | .out _     => true
  | .jt _ _    => true
  | .jf _ _    => true
  | .lt _ _ d  => d.isTarget
  | .eq _ _ d  => d.isTarget
  | .arb _     => true
  | .halt      => true

/-- `MEM_LIMIT` is `none` or `some n` with `n ≥ 1` (R11). -/
def Params.wf (p : Params) : Bool :=
  match p.memLimit with
  | none   => true
  | some n => 1 ≤ n

/-- `PHASE_SET` is a list of distinct WORDs (R11). -/
def phaseSetWf (ps : List Word) : Bool := decide ps.Nodup

end Sys2Proof
end

