-- ==== Sys2Proof/Decode.lean ====
section
/-! DEFINITION. The decimal decoder (R60 to R74), total on every word and every word list, and the encoder written from
the same tables. -/

namespace Sys2Proof

/-- `digit(w, k)`, the decimal digit of weight `10^k` (R12). -/
def digit (n k : Nat) : Nat := n / 10 ^ k % 10

/-- The opcode of `w mod 100`, where the decoder recognises one (R62). -/
def opcodeOf : Nat → Option Opcode
  | 1 => some .add
  | 2 => some .mul
  | 3 => some .inp
  | 4 => some .out
  | 5 => some .jt
  | 6 => some .jf
  | 7 => some .lt
  | 8 => some .eq
  | 9 => some .arb
  | 99 => some .halt
  | _ => none

/-- The mode of a digit (R63); digits 3 to 9 map to no mode. -/
def modeOf : Nat → Option Mode
  | 0 => some .position
  | 1 => some .immediate
  | 2 => some .relative
  | _ => none

/-- Operand counts (R64). -/
def Opcode.arity : Opcode → Nat
  | .add | .mul | .lt | .eq => 3
  | .jt | .jf => 2
  | .inp | .out | .arb => 1
  | .halt => 0

/-- `len(op) = 1 + arity(op)` words (R64). -/
def Opcode.len (op : Opcode) : Nat := 1 + op.arity

/-- `WritePositions(op)` (R64, R67): the position of the write target. -/
def Opcode.writePosition : Opcode → Option Nat
  | .add | .mul | .lt | .eq => some 2
  | .inp => some 0
  | .out | .jt | .jf | .arb | .halt => none

/-- What the decoder returns for an instruction word: `(op, m0, m1, m2)` (R67). -/
structure Head where
  op : Opcode
  m0 : Mode
  m1 : Mode
  m2 : Mode
  deriving DecidableEq, Repr

/-- The mode of operand position `i`. -/
def Head.mode (h : Head) : Nat → Mode
  | 0 => h.m0
  | 1 => h.m1
  | _ => h.m2

/-- The mode digit of position `i`, or `IllegalMode(w, i)` (R70). -/
def decodeMode (w : Word) (i : Nat) : Except Cause Mode :=
  match modeOf (digit w.toNat (i + 2)) with
  | some m => .ok m
  | none   => .error (.illegalMode w i)

/-- The last check of `Decode`: an Immediate write target raises `ImmediateWrite(w, p)` (R72). -/
def checkWriteMode (w : Word) (h : Head) : Except Cause Head :=
  match h.op.writePosition with
  | none   => .ok h
  | some p => if h.mode p = .immediate then .error (.immediateWrite w p) else .ok h

/-- `Decode(w)` (R67): the checks in the order the rule lists them, which is their fault priority (R199). -/
def decodeWord (w : Word) : Except Cause Head :=
  if w.toInt < 0 then .error (.illegalOpcode w)                       -- R68
  else
    match opcodeOf (w.toNat % 100) with
    | none    => .error (.illegalOpcode w)                            -- R69
    | some op => do
      let m0 ← decodeMode w 0                                         -- R70
      let m1 ← decodeMode w 1
      let m2 ← decodeMode w 2
      if w.toNat / 100000 ≠ 0 then .error (.illegalMode w 3)          -- R71
      else checkWriteMode w ⟨op, m0, m1, m2⟩                          -- R72

/-- The instruction of a decoded head and its operand words; operand words beyond the arity are ignored (R60, R65). -/
def Head.build (h : Head) (x0 x1 x2 : Word) : Instr :=
  match h.op with
  | .add  => .add ⟨h.m0, x0⟩ ⟨h.m1, x1⟩ ⟨h.m2, x2⟩
  | .mul  => .mul ⟨h.m0, x0⟩ ⟨h.m1, x1⟩ ⟨h.m2, x2⟩
  | .inp  => .inp ⟨h.m0, x0⟩
  | .out  => .out ⟨h.m0, x0⟩
  | .jt   => .jt ⟨h.m0, x0⟩ ⟨h.m1, x1⟩
  | .jf   => .jf ⟨h.m0, x0⟩ ⟨h.m1, x1⟩
  | .lt   => .lt ⟨h.m0, x0⟩ ⟨h.m1, x1⟩ ⟨h.m2, x2⟩
  | .eq   => .eq ⟨h.m0, x0⟩ ⟨h.m1, x1⟩ ⟨h.m2, x2⟩
  | .arb  => .arb ⟨h.m0, x0⟩
  | .halt => .halt

/-- Why a word list is no instruction. -/
inductive DecodeReject where
  /-- fewer words than the instruction has -/
  | truncated
  /-- the decoder's own fault (R67) -/
  | illegal (c : Cause)
  deriving DecidableEq, Repr

/-- Decode the instruction at the front of a word list and return it with the words after it (R60, R77). -/
def decode : List Word → Except DecodeReject (Instr × List Word)
  | [] => .error .truncated
  | w :: ws =>
    match decodeWord w with
    | .error c => .error (.illegal c)
    | .ok h =>
      if ws.length < h.op.arity then .error .truncated
      else .ok (h.build (ws.getD 0 0) (ws.getD 1 0) (ws.getD 2 0), ws.drop h.op.arity)

/-! ### The encoder -/

/-- The opcode numbers (R64). -/
def Opcode.number : Opcode → Nat
  | .add => 1
  | .mul => 2
  | .inp => 3
  | .out => 4
  | .jt => 5
  | .jf => 6
  | .lt => 7
  | .eq => 8
  | .arb => 9
  | .halt => 99

/-- The mode digits (R63). -/
def Mode.digit : Mode → Nat
  | .position => 0
  | .immediate => 1
  | .relative => 2

/-- `Enc(op, m0, m1, m2) = op + 100·d0 + 1000·d1 + 10000·d2` (R74). -/
def encodeHead (h : Head) : Word :=
  BitVec.ofNat 64 (h.op.number + 100 * h.m0.digit + 1000 * h.m1.digit + 10000 * h.m2.digit)

/-- An instruction's opcode and modes; unused positions have digit 0, which makes the word canonical (R74). -/
def Instr.head : Instr → Head
  | .add a b d => ⟨.add, a.mode, b.mode, d.mode⟩
  | .mul a b d => ⟨.mul, a.mode, b.mode, d.mode⟩
  | .inp d     => ⟨.inp, d.mode, .position, .position⟩
  | .out a     => ⟨.out, a.mode, .position, .position⟩
  | .jt a b    => ⟨.jt, a.mode, b.mode, .position⟩
  | .jf a b    => ⟨.jf, a.mode, b.mode, .position⟩
  | .lt a b d  => ⟨.lt, a.mode, b.mode, d.mode⟩
  | .eq a b d  => ⟨.eq, a.mode, b.mode, d.mode⟩
  | .arb a     => ⟨.arb, a.mode, .position, .position⟩
  | .halt      => ⟨.halt, .position, .position, .position⟩

/-- An instruction's operand words, in position order (R65). -/
def Instr.operandWords : Instr → List Word
  | .add a b d => [a.raw, b.raw, d.raw]
  | .mul a b d => [a.raw, b.raw, d.raw]
  | .inp d     => [d.raw]
  | .out a     => [a.raw]
  | .jt a b    => [a.raw, b.raw]
  | .jf a b    => [a.raw, b.raw]
  | .lt a b d  => [a.raw, b.raw, d.raw]
  | .eq a b d  => [a.raw, b.raw, d.raw]
  | .arb a     => [a.raw]
  | .halt      => []

/-- The words of an instruction: its canonical instruction word, then its operand words (R60, R65, R74). -/
def encode (i : Instr) : List Word := encodeHead i.head :: i.operandWords

/-- The canonical head of a decoded head: every unused position's mode replaced by Position (R74). -/
def Head.canonical (h : Head) : Head := (h.build 0 0 0).head

/-! ### Words numbered as the opcode table numbers them -/

/-- The four WORDs of an instruction whose bits are `w`: bit 0 is the least significant bit of the first WORD, a later
WORD's bits count on from it, and every bit at or above `nbits` is 0. -/
def tableWords (nbits w : Nat) : List Word :=
  let v := w % 2 ^ nbits
  [BitVec.ofNat 64 v, BitVec.ofNat 64 (v / 2 ^ 64), BitVec.ofNat 64 (v / 2 ^ 128), BitVec.ofNat 64 (v / 2 ^ 192)]

/-- The instruction the decoder reads from those words. -/
def decodeTableWord (nbits w : Nat) : Option Instr :=
  match decode (tableWords nbits w) with
  | .ok (i, _) => some i
  | .error _   => none

end Sys2Proof
end

