-- ==== Sys2Proof/Machine/State.lean ====
section
/-! DEFINITION. The state of the whole block: one VM core and its channels (R20), the cores that stand by, the
feedback-network orchestrator (R160), the permutation search (R174), the host's side of the ports (R30 to R33), and the
state right after reset (R220). -/

namespace Sys2Proof.Machine

/-- `Mem` (R25): the WORDs that are not 0, by address, in canonical form (`Memory.wf`); an unlisted address reads 0 (R42).
The spec has no byte view of memory, so a cell holds one WORD (R45). -/
abbrev Memory := List (Nat × Word)

/-- The canonical form: addresses strictly rising, all inside the address space (R25), and no entry equal to 0, which is
what an unlisted address reads as (R42). -/
abbrev Memory.wf (m : Memory) : Prop :=
  m.Pairwise (fun x y => x.1 < y.1) ∧ (∀ e ∈ m, e.2 ≠ 0) ∧ (∀ e ∈ m, (e.1 : Int) ≤ addrMax)

/-- The status register (R27). -/
inductive Status where
  /-- code 0: constructed and never run -/
  | ready
  /-- code 1: a run is in progress -/
  | running
  /-- code 2: the last run stopped at an IN with no input -/
  | awaitingInput
  /-- code 3: the last run executed HALT; absorbing -/
  | terminated
  /-- code 4: the last run raised a fault; absorbing; `cause` is valid -/
  | faulted
  deriving DecidableEq, Repr

/-- One VM core (R20) with the two channels its host hands it (R31, R32). -/
structure VmCore where
  /-- `Mem` (R25) -/
  mem    : Memory
  /-- the instruction pointer (R22, R23) -/
  ip     : Word
  /-- the relative base (R24) -/
  rb     : Word
  /-- the status register (R27) -/
  status : Status
  /-- the fault-cause register (R28); `none` is the spec's own state "not valid" -/
  cause  : Option Cause
  /-- the input FIFO, head first (R31); a network calls it `Q[i]` (R160) -/
  inq    : List Word
  /-- the output sequence, oldest first (R32) -/
  outq   : List Word
  /-- the model's own bit for the state `(none)` of R92: false until the host constructs the core; a `run` before that is
  refused (R224) -/
  constructed : Bool
  deriving DecidableEq, Repr

/-- `run`'s two-variant exit status (R18, R33, R204). -/
inductive ExitStatus where
  | terminated
  | awaitingInput
  deriving DecidableEq, Repr

/-- The orchestrator's own state (R160). -/
inductive NetStatus where
  /-- code 0 -/
  | built
  /-- code 1 -/
  | driving
  /-- code 2 -/
  | done
  /-- code 3 -/
  | faulted
  deriving DecidableEq, Repr

/-- The orchestrator (R160, R178). Its cores `C[0..N-1]` are the block's cores in index order (`State.cores`), their input
FIFOs are `Q[i]`, and the index `i` it is at is the number of cores before the selected one. -/
structure Orch where
  /-- `TOPOLOGY` (R160) -/
  topology  : Topology
  /-- `N` (R160) -/
  n         : Nat
  /-- `S`, the running signal (R160); `none` is "not valid before `drive`" -/
  signal    : Option Word
  /-- `st[0..]`: the exit statuses of the current pass so far (R160) -/
  st        : List ExitStatus
  /-- `netstatus` (R160) -/
  netstatus : NetStatus
  /-- the argument of the drive in progress (R163) -/
  phases    : List Word
  /-- the pass `k` (R178); `first` of R163 is `pass = 0` -/
  pass      : Nat
  /-- the selected core's `run` has been issued and its return not yet taken (R178) -/
  waiting   : Bool
  deriving DecidableEq, Repr

/-- What the last `drive` or `search` returned (R171, R174, R178). -/
inductive Reply where
  | signal (w : Word)
  | fault (f : NetFault)
  deriving DecidableEq, Repr

/-- The permutation search in progress (R174), with what the host had in the block before it: each trial runs on fresh
cores and a fresh orchestrator of its own (R176). -/
structure Search where
  /-- the program (R174) -/
  image    : List Word
  /-- the topology of every trial (R174) -/
  topology : Topology
  /-- the permutations not tried yet (R174) -/
  todo     : List (List Word)
  /-- the largest signal so far (R174) -/
  best     : Option Word
  /-- a trial's drive has been issued and its reply not yet taken -/
  trial    : Bool
  /-- the host's own cores and orchestrator, put back when the search ends -/
  homeBefore : List VmCore
  homeCore   : VmCore
  homeAfter  : List VmCore
  homeOrch   : Option Orch
  deriving DecidableEq, Repr

/-- What the host can do at the block's ports, between runs (R30 to R34, R178). -/
inductive Cmd where
  /-- load port: a core constructed from an image takes the selected core's place (R30, R220) -/
  | construct (image : List Word)
  /-- the host appends values to the selected core's input FIFO (R31) -/
  | feed (values : List Word)
  /-- the host hands the selected core an empty output sequence (R32 gives the sequence; the command is DESIGN CHOICE,
  log 26) -/
  | freshOutput
  /-- command port: start or resume a run of the selected core (R33, R89) -/
  | run
  /-- clone the selected core (R34) -/
  | clone
  /-- turn to another of the host's own cores -/
  | select (i : Nat)
  /-- orchestrator port `construct` (R161) -/
  | constructNet (image : List Word) (topology : Topology) (n : Nat)
  /-- orchestrator port `drive` (R163) -/
  | drive (phases : List Word)
  /-- orchestrator port `search` (R174) -/
  | search (image : List Word) (topology : Topology) (phaseSet : List Word)
  deriving DecidableEq, Repr

/-- The whole block. `core` is the selected core, the only one that can execute (R166); `before` and `after` are the other
cores, by index. -/
structure State where
  /-- the block's parameters (R11) -/
  params : Params
  /-- the cores of lower index -/
  before : List VmCore
  /-- the selected core (R20) -/
  core   : VmCore
  /-- the cores of higher index -/
  after  : List VmCore
  /-- the orchestrator (R160); `none` when the host uses its cores on their own -/
  orch   : Option Orch
  /-- the search in progress (R174) -/
  search : Option Search
  /-- what the last `drive` or `search` returned (R178) -/
  reply  : Option Reply
  /-- the model's own: the commands the host goes on to give, first one first -/
  cmds   : List Cmd
  deriving DecidableEq, Repr

/-- All cores, in index order: `C[0..N-1]` when there is a network (R160). -/
def State.cores (s : State) : List VmCore := s.before ++ s.core :: s.after

/-- Why the machine stops. A core's own faults (R191) do not stop the block: they are taken into `status` and `cause`
(R89, R190). Every constructor here is raised by the orchestrator's or the search's sequencer only, in a state that no
command sequence from reset reaches, because the spec gives that state no meaning: safe. -/
inductive Fault where
  /-- raised by the orchestrator when a core is `Faulted` and `cause` is not valid: R28 forbids reading it. Safe. -/
  | causeNotValid
  /-- raised by the orchestrator when it waits for a run that has not been issued: there is no exit status. Safe. -/
  | noExitStatus
  /-- raised by the search when a trial's drive has ended without a reply. Safe. -/
  | noReply
  deriving DecidableEq, Repr

/-- Why the model gives no meaning: an unmodelled instruction, or a host that breaks the ports' protocol. -/
inductive Refusal where
  /-- raised by `exec` for an instruction with no meaning yet (none is left). Safe. -/
  | notModelled (mnemonic : String)
  /-- raised by a host command on a core of a network: only the orchestrator commands its cores (R178). Safe. -/
  | coreBelongsToNetwork
  /-- raised by a `drive` when no network was constructed. Safe. -/
  | noNetwork
  /-- raised by `select` when the host has no core of that index. Safe. -/
  | noSuchCore
  /-- raised by the host's `run` on a core that was never constructed, which has no meaning and is refused (R224), and by
  `clone` of one: there is no core to copy. Safe. -/
  | neverConstructed
  /-- raised by `search` when the value set lists a value twice: `PHASE_SET` is a list of distinct WORDs (R11). Safe. -/
  | notAPhaseSet
  deriving DecidableEq, Repr

/-- The outcome of one step. -/
abbrev StepResult := Host.Outcome State Fault Refusal

/-- The block's core before the host has constructed it (R224): its registers hold the values that R220 gives every core,
over memory with nothing listed, and its channels are empty (DESIGN CHOICE, logs 2 and 3). -/
def VmCore.reset : VmCore :=
  { mem := [], ip := 0, rb := 0, status := .ready, cause := none, inq := [], outq := [], constructed := false }

/-- The block right after reset: one core that waits for its `construct`, which is R220's reset (R224), no network, no
search, parameters at R11's defaults. R220 and R222 speak of a core after `construct`; what stands in the block before it is
the model's choice (DESIGN CHOICE, logs 2, 3, 8, 12, 16 and 17). -/
def State.reset : State :=
  { params := { }, before := [], core := VmCore.reset, after := [], orch := none, search := none, reply := none,
    cmds := [] }

end Sys2Proof.Machine
end

