-- ==== Sys2Proof/Machine/Ops.lean ====
section
/-! DEFINITION. The shared operations on memory and registers: `CheckAddr`, reads and writes, `Advance`, taking a fault,
and the run loop's entry beside it (a core has no return from a fault, R206; the one resumable stop is `AwaitingInput`). -/

namespace Sys2Proof.Machine

/-- `MemRead(a, 1)` (R14): an address no write has touched reads 0 (R42). -/
def Memory.read : Memory → Nat → Word
  | [], _ => 0
  | (k, v) :: m, a => if k = a then v else Memory.read m a

/-- The memory without an entry for `a`, so that `a` reads 0. -/
def Memory.clear (m : Memory) (a : Nat) : Memory := m.filter (fun e => e.1 != a)

/-- The memory with the entry `(a, v)` at its place in the rising order. -/
def Memory.insert : Memory → Nat → Word → Memory
  | [], a, v => [(a, v)]
  | (k, w) :: m, a, v =>
    if a < k then (a, v) :: (k, w) :: m
    else if a = k then (a, v) :: m
    else (k, w) :: Memory.insert m a v

/-- `MemWrite(a, 1, v)` (R14), keeping the canonical form. -/
def Memory.write (m : Memory) (a : Nat) (v : Word) : Memory := if v = 0 then m.clear a else m.insert a v

/-- Memory holding `image` from address `a` on and 0 elsewhere (R41, R42); a word past `ADDR_MAX` has no cell (R25). -/
def Memory.ofImageFrom (a : Nat) : List Word → Memory
  | [] => []
  | w :: ws =>
    if w = 0 ∨ addrMax < (a : Int) then Memory.ofImageFrom (a + 1) ws else (a, w) :: Memory.ofImageFrom (a + 1) ws

/-- `CheckAddr(a)` (R15) under `MEM_LIMIT = lim`. -/
def checkAddr (lim : Option Nat) (a : Int) : Except Cause Nat :=
  if a < 0 then .error (.negativeAddress a)
  else if addrMax < a then .error (.outOfCapacity a)
  else
    match lim with
    | none   => .ok a.toNat
    | some n => if (n : Int) ≤ a then .error (.outOfCapacity a) else .ok a.toNat

/-- `CheckAddr(ip + k)` and the read that follows it: the fetches of R80 and R82. -/
def VmCore.fetchWord (lim : Option Nat) (c : VmCore) (k : Nat) : Except Cause Word := do
  let a ← checkAddr lim (c.ip.toInt + k)
  pure (c.mem.read a)

/-- `Advance()` (R87): the address of the next instruction, or `OutOfCapacity` past `ADDR_MAX`. -/
def VmCore.advance (c : VmCore) (op : Opcode) : Except Cause Word :=
  if addrMax < c.ip.toInt + op.len then .error (.outOfCapacity (c.ip.toInt + op.len))
  else .ok (wordOf (c.ip.toInt + op.len))

/-- `MemWrite(a, 1, v)` on a core. -/
def VmCore.writeMem (c : VmCore) (a : Nat) (v : Word) : VmCore := { c with mem := c.mem.write a v }

/-- `ip <- v` (R14). -/
def VmCore.setIp (c : VmCore) (v : Word) : VmCore := { c with ip := v }

/-- `rb <- v` (R14). -/
def VmCore.setRb (c : VmCore) (v : Word) : VmCore := { c with rb := v }

/-- `status <- v`: the run loop's `stop` arms (R89). -/
def VmCore.setStatus (c : VmCore) (v : Status) : VmCore := { c with status := v }

/-- The input FIFO after `InPop()` (R31). -/
def VmCore.setInq (c : VmCore) (q : List Word) : VmCore := { c with inq := q }

/-- `OutPush(v)` (R32). -/
def VmCore.pushOut (c : VmCore) (v : Word) : VmCore := { c with outq := c.outq ++ [v] }

/-- Taking a fault (R89, R190, R203): `status <- Faulted`, `cause <- (code, info)`. Control goes nowhere inside the core;
the instruction has written nothing (R200). -/
def VmCore.takeFault (c : VmCore) (f : Cause) : VmCore := { c with status := .faulted, cause := some f }

/-- `run`'s entry (R89): from `Ready` or `AwaitingInput` the run is in progress; a `Terminated` core follows
`RUN_ON_TERMINATED` (R93); a `Faulted` core executes nothing and keeps its fault (R94). A `Running` core cannot be told to
run (R33). -/
def VmCore.startRun (p : RunOnTerminated) (c : VmCore) : VmCore :=
  match c.status with
  | .ready         => c.setStatus .running
  | .awaitingInput => c.setStatus .running
  | .running       => c
  | .faulted       => c
  | .terminated    =>
    match p with
    | .noop  => c
    | .fault => c.takeFault .runAfterTerminated

/-- The block with another value of the selected core. -/
def State.withCore (s : State) (c : VmCore) : State := { s with core := c }

/-- The end of a step (R88, R89): the core the instruction leaves, or the fault taken. -/
def State.commit (s : State) (r : Except Cause VmCore) : StepResult :=
  match r with
  | .ok c    => .next (s.withCore c)
  | .error f => .next (s.withCore (s.core.takeFault f))

end Sys2Proof.Machine
end

