-- ==== Sys2Proof/Machine/Flags.lean ====
section
/-! DEFINITION. The core has no flags (R26). What stands in their place: the overflow check of the arithmetic ALU, which
is a fault (R102), and the truth values of the comparisons, which are data (R132). -/

namespace Sys2Proof.Machine

/-- The exact result `v` of `op` on `x` and `y`, or `Overflow(op, x, y)` when it is no WORD (R102, R197). -/
def exactResult (op : Opcode) (x y : Word) (v : Int) : Except Cause Word :=
  if Fits64 v then .ok (wordOf v) else .error (.overflow op x y)

/-- A comparison's result word: exactly 0 or 1 (R130, R131, R132). -/
def truthWord (b : Bool) : Word := if b then 1 else 0

end Sys2Proof.Machine
end

