-- ==== Sys2Proof/Machine/Operands.lean ====
section
/-! DEFINITION. The address ALU: effective addresses, read operands and write targets (R83 to R86), and the two shapes of
step that several instructions share. -/

namespace Sys2Proof.Machine

/-- `EA(m, raw)` (R84), in mathematical integers; an Immediate operand has no address. -/
def effectiveAddress (rb : Word) (o : Operand) : Option Int :=
  match o.mode with
  | .position  => some o.raw.toInt
  | .immediate => none
  | .relative  => some (rb.toInt + o.raw.toInt)

/-- `ReadOperand(m, raw)` (R85). -/
def VmCore.readOperand (lim : Option Nat) (c : VmCore) (o : Operand) : Except Cause Word :=
  match effectiveAddress c.rb o with
  | none    => .ok o.raw
  | some ea => do
    let a ← checkAddr lim ea
    pure (c.mem.read a)

/-- The unchecked address of write target `d` at position `p` of the instruction with head `h`. An Immediate write target
is `ImmediateWrite(w, p)`, which comes before every other check (R72, R199); the decoder has raised it already, so no
decoded instruction meets it here (R83). -/
def targetAddress (rb : Word) (h : Head) (p : Nat) (d : Operand) : Except Cause Int :=
  match effectiveAddress rb d with
  | none    => .error (.immediateWrite (encodeHead h) p)
  | some ea => .ok ea

/-- The step of the F3rrw instructions after decode (R65, R88): the read operands in ascending order, the write address,
the opcode's own result `f`, `Advance`, then the one write and `ip` (R55). -/
def VmCore.storeBinary (lim : Option Nat) (c : VmCore) (op : Opcode) (a b d : Operand)
    (f : Word → Word → Except Cause Word) : Except Cause VmCore := do
  let ea ← targetAddress c.rb ⟨op, a.mode, b.mode, d.mode⟩ 2 d
  let x ← c.readOperand lim a
  let y ← c.readOperand lim b
  let k ← checkAddr lim ea
  let r ← f x y
  let next ← c.advance op
  pure ((c.writeMem k r).setIp next)

/-- The step of the F2rr instructions after decode (R88, R120, R121): a taken jump loads `val_1` unchecked (R122), a jump
not taken advances. -/
def VmCore.branch (lim : Option Nat) (c : VmCore) (op : Opcode) (a b : Operand) (taken : Word → Bool) :
    Except Cause VmCore := do
  let x ← c.readOperand lim a
  let y ← c.readOperand lim b
  if taken x then pure (c.setIp y)
  else
    let next ← c.advance op
    pure (c.setIp next)

end Sys2Proof.Machine
end

