-- ==== Sys2Proof/Machine/Arithmetic.lean ====
section
/-! DEFINITION. Opcodes 1 and 2: ADD and MUL (R100 to R103). -/

namespace Sys2Proof.Machine

/-- ADD (R100): the exact signed sum, or `Overflow`. -/
def execAdd (a b d : Operand) (s : State) : StepResult :=
  s.commit (s.core.storeBinary s.params.memLimit .add a b d fun x y => exactResult .add x y (x.toInt + y.toInt))

/-- MUL (R101): the exact signed product, or `Overflow`. -/
def execMul (a b d : Operand) (s : State) : StepResult :=
  s.commit (s.core.storeBinary s.params.memLimit .mul a b d fun x y => exactResult .mul x y (x.toInt * y.toInt))

end Sys2Proof.Machine
end

