-- ==== Sys2Proof/Machine/Compare.lean ====
section
/-! DEFINITION. Opcodes 7 and 8: LT and EQ (R130 to R132). -/

namespace Sys2Proof.Machine

/-- LT (R130): 1 if `val_0 < val_1`, signed, else 0. -/
def execLt (a b d : Operand) (s : State) : StepResult :=
  s.commit (s.core.storeBinary s.params.memLimit .lt a b d fun x y => .ok (truthWord (decide (x.toInt < y.toInt))))

/-- EQ (R131): 1 if `val_0 = val_1`, all 64 bits, else 0. -/
def execEq (a b d : Operand) (s : State) : StepResult :=
  s.commit (s.core.storeBinary s.params.memLimit .eq a b d fun x y => .ok (truthWord (decide (x = y))))

end Sys2Proof.Machine
end

