-- ==== Sys2Proof/Machine/InputOutput.lean ====
section
/-! DEFINITION. Opcodes 3 and 4: IN and OUT (R110 to R113). -/

namespace Sys2Proof.Machine

/-- The step of IN after decode (R110): the write address and `Advance` come before the input test; with no input the run
stops with `AwaitingInput` and nothing else changes (R90). -/
def VmCore.input (lim : Option Nat) (c : VmCore) (d : Operand) : Except Cause VmCore := do
  let ea ← targetAddress c.rb ⟨.inp, d.mode, .position, .position⟩ 0 d
  let k ← checkAddr lim ea
  let next ← c.advance .inp
  match c.inq with
  | []     => pure (c.setStatus .awaitingInput)
  | v :: q => pure (((c.setInq q).writeMem k v).setIp next)

/-- The step of OUT after decode (R111). -/
def VmCore.output (lim : Option Nat) (c : VmCore) (a : Operand) : Except Cause VmCore := do
  let x ← c.readOperand lim a
  let next ← c.advance .out
  pure ((c.pushOut x).setIp next)

/-- IN (R110). -/
def execInp (d : Operand) (s : State) : StepResult := s.commit (s.core.input s.params.memLimit d)

/-- OUT (R111). -/
def execOut (a : Operand) (s : State) : StepResult := s.commit (s.core.output s.params.memLimit a)

end Sys2Proof.Machine
end

