-- ==== Sys2Proof/Machine/Jumps.lean ====
section
/-! DEFINITION. Opcodes 5 and 6: JT and JF (R120 to R123). -/

namespace Sys2Proof.Machine

/-- JT (R120): taken when `val_0 ≠ 0`. -/
def execJt (a b : Operand) (s : State) : StepResult :=
  s.commit (s.core.branch s.params.memLimit .jt a b fun x => x != 0)

/-- JF (R121): taken when `val_0 = 0`. -/
def execJf (a b : Operand) (s : State) : StepResult :=
  s.commit (s.core.branch s.params.memLimit .jf a b fun x => x == 0)

end Sys2Proof.Machine
end

