-- ==== Sys2Proof/Machine/RelativeBase.lean ====
section
/-! DEFINITION. Opcode 9: ARB (R140, R141). -/

namespace Sys2Proof.Machine

/-- The step of ARB after decode (R140): the operand is resolved with the old base, and the new base is exact or
`Overflow(ARB, rb, val_0)`. -/
def VmCore.adjustBase (lim : Option Nat) (c : VmCore) (a : Operand) : Except Cause VmCore := do
  let x ← c.readOperand lim a
  let r ← exactResult .arb c.rb x (c.rb.toInt + x.toInt)
  let next ← c.advance .arb
  pure ((c.setRb r).setIp next)

/-- ARB (R140). -/
def execArb (a : Operand) (s : State) : StepResult := s.commit (s.core.adjustBase s.params.memLimit a)

end Sys2Proof.Machine
end

