-- ==== Sys2Proof/Machine/Terminate.lean ====
section
/-! DEFINITION. Opcode 99: HALT (R150, R151). -/

namespace Sys2Proof.Machine

/-- HALT (R150): the run stops with `Terminated`; `ip`, `rb` and `Mem` stay. -/
def execHalt (s : State) : StepResult := s.commit (.ok (s.core.setStatus .terminated))

end Sys2Proof.Machine
end

