-- ==== Sys2Proof/Machine/Fetch.lean ====
section
/-! DEFINITION. Fetch, decode and operand-word fetch (R80 to R82), and one step of a running core (R88). -/

namespace Sys2Proof.Machine

/-- `raw_i` (R82); a position past the opcode's arity is not fetched and its value not used. -/
def VmCore.operandWord (lim : Option Nat) (c : VmCore) (op : Opcode) (i : Nat) : Except Cause Word :=
  if i < op.arity then c.fetchWord lim (i + 1) else .ok 0

/-- Stages 1 to 3 of the step (R88): the instruction at `ip`, with its operand words. -/
def VmCore.fetch (lim : Option Nat) (c : VmCore) : Except Cause Instr := do
  let w ← c.fetchWord lim 0
  let h ← decodeWord w
  let x0 ← c.operandWord lim h.op 0
  let x1 ← c.operandWord lim h.op 1
  let x2 ← c.operandWord lim h.op 2
  pure (h.build x0 x1 x2)

/-- One step of the running selected core (R88, R89). -/
def State.coreStep (s : State) : StepResult :=
  match s.core.fetch s.params.memLimit with
  | .error f => s.commit (.error f)
  | .ok i    => exec i s

/-- The base `withFetchWord` stores at: `ip` if a longest instruction fits there, else 0. -/
def VmCore.fetchBase (lim : Option Nat) (c : VmCore) : Word :=
  match checkAddr lim c.ip.toInt, checkAddr lim (c.ip.toInt + 4) with
  | .ok _, .ok _ => c.ip
  | _, _         => 0

/-- A core whose next fetch finds the words `ws`: they stand at `ip`, and a run of the constructed core is in progress. -/
def VmCore.withWords (lim : Option Nat) (c : VmCore) (ws : List Word) : VmCore :=
  let ip := c.fetchBase lim
  let mem := ws.foldl (fun (acc : Memory × Nat) w => (acc.1.write acc.2 w, acc.2 + 1)) (c.mem, ip.toNat)
  { c with mem := mem.1, ip := ip, status := .running, cause := none, constructed := true }

end Sys2Proof.Machine
end

