-- ==== Sys2Proof/Machine/Network.lean ====
section
/-! DEFINITION. The feedback-network orchestrator (R160 to R173, R178): `construct`, `drive`, and the sequencer that issues
one `run` at a time and waits for it to return. -/

namespace Sys2Proof.Machine

/-- A core right after `construct(image)` (R30, R220). -/
def VmCore.construct (image : List Word) : VmCore :=
  { mem := Memory.ofImageFrom 0 image, ip := 0, rb := 0, status := .ready, cause := none, inq := [], outq := [],
    constructed := true }

/-- A clone (R34): the core's own five pieces of state, and channels of its own, which are not core state (R31, R32). -/
def VmCore.clone (c : VmCore) : VmCore := { c with inq := [], outq := [] }

/-- `construct(program, topology, N)` (R161): one core is constructed and cloned `N` times. With `N = 0` the constructed
core stays and the network has no core of its own; `drive` then reports `ConfigError` (R173). -/
def State.constructNet (s : State) (image : List Word) (topology : Topology) (n : Nat) : State :=
  { s with
    before := []
    core   := (VmCore.construct image).clone
    after  := List.replicate (n - 1) (VmCore.construct image).clone
    orch   := some { topology := topology, n := n, signal := none, st := [], netstatus := .built, phases := [],
                     pass := 0, waiting := false }
    reply  := none }

/-- The orchestrator at the start of a drive (R163, R164). -/
def Orch.start (o : Orch) (initial : Word) (phases : List Word) : Orch :=
  { o with signal := some initial, st := [], netstatus := .driving, phases := phases, pass := 0, waiting := false }

/-- `drive(phases)` is accepted (R163, R173). -/
def Orch.accepts (o : Orch) (phases : List Word) : Bool :=
  decide (o.netstatus = .built ∧ 1 ≤ o.n ∧ phases.length = o.n)

/-- `drive(phases)` is issued: the drive starts, or reports `ConfigError` and runs nothing (R163, R173). -/
def State.startDrive (s : State) (phases : List Word) : StepResult :=
  match s.orch with
  | none   => .refused .noNetwork
  | some o =>
    if o.accepts phases then
      .next { s with orch := some (o.start s.params.initialSignal phases), reply := none }
    else .next { s with reply := some (.fault .configError) }

/-- The values placed in the selected core's input before its run (R163): in the first pass its phase, then the signal. -/
def Orch.seeds (o : Orch) (i : Nat) : List Word :=
  (if o.pass = 0 then o.phases[i]?.toList else []) ++ o.signal.toList

/-- The orchestrator seeds the selected core, hands it an empty output and issues `run` (R163). -/
def State.issueRun (s : State) (o : Orch) : State :=
  { s with
    core := VmCore.startRun s.params.runOnTerminated
              { s.core with inq := s.core.inq ++ o.seeds s.before.length, outq := [] }
    orch := some { o with waiting := true } }

/-- `NextSignal(S, O, i)` (R165); `none` is the fault `NoSignal(i)`. -/
def nextSignal (p : NoOutputPolicy) (signal : Option Word) (out : List Word) : Option Word :=
  match out.getLast? with
  | some v => some v
  | none   =>
    match p with
    | .keep  => signal
    | .fault => none

/-- The drive ends in a fault (R165, R170): no further core runs and no signal is returned. -/
def State.failDrive (s : State) (o : Orch) (f : NetFault) : State :=
  { s with orch := some { o with netstatus := .faulted, waiting := false }, reply := some (.fault f) }

/-- The end test after a complete pass (R167, R168). -/
def Orch.passEnds (o : Orch) : Bool :=
  match o.topology with
  | .linear => true
  | .loop   => o.st.all (fun e => e == .terminated)

/-- The selection goes back to core 0 (R166: core 0 of pass `k + 1` runs after core `N - 1` of pass `k`). -/
def State.rewind (s : State) : State :=
  match s.before with
  | []      => s
  | c :: cs => { s with before := [], core := c, after := cs ++ s.core :: s.after }

/-- The orchestrator goes on to the next core of the pass, ends the drive with its signal, or begins the next pass
(R163, R166 to R168, R171). -/
def State.moveOn (s : State) (o : Orch) : State :=
  match s.after with
  | c :: cs =>
    { s with before := s.before ++ [s.core], core := c, after := cs, orch := some { o with waiting := false } }
  | [] =>
    if o.passEnds then
      { s with orch := some { o with netstatus := .done, waiting := false }, reply := o.signal.map Reply.signal }
    else { s.rewind with orch := some { o with st := [], pass := o.pass + 1, waiting := false } }

/-- The selected core's run has returned the exit status `e` (R163, R165). -/
def State.afterRun (s : State) (o : Orch) (e : ExitStatus) : State :=
  match nextSignal s.params.noOutput o.signal s.core.outq with
  | none   => s.failDrive { o with st := o.st ++ [e] } (.noSignal s.before.length)
  | some v => s.moveOn { o with st := o.st ++ [e], signal := some v }

/-- The orchestrator takes the return of the run it waits for (R163, R170). -/
def State.takeReturn (s : State) (o : Orch) : StepResult :=
  match s.core.status, s.core.cause with
  | .faulted, some f     => .next (s.failDrive o (.coreFault s.before.length f))
  | .faulted, none       => .fault .causeNotValid
  | .terminated, _       => .next (s.afterRun o .terminated)
  | .awaitingInput, _    => .next (s.afterRun o .awaitingInput)
  | .ready, _            => .fault .noExitStatus
  | .running, _          => .fault .noExitStatus

/-- One step of the driving orchestrator while no core runs (R178). -/
def State.orchStep (s : State) (o : Orch) : StepResult :=
  if o.waiting then s.takeReturn o else .next (s.issueRun o)

end Sys2Proof.Machine
end

