-- ==== Sys2Proof/Machine/Search.lean ====
section
/-! DEFINITION. The permutation search (R174 to R177): every permutation of the value set is tried on a fresh network and
the largest signal kept. -/

namespace Sys2Proof.Machine

/-- `x` put at every place of a list. -/
def everyPlace (x : Word) : List Word → List (List Word)
  | [] => [[x]]
  | y :: ys => (x :: y :: ys) :: (everyPlace x ys).map (fun zs => y :: zs)

/-- All permutations of a list (R174: "every one of the N! orders"). -/
def permutations : List Word → List (List Word)
  | [] => [[]]
  | x :: xs => (permutations xs).flatMap (everyPlace x)

/-- The larger of the best signal so far and a new one, signed (R174). -/
def betterSignal (best : Option Word) (w : Word) : Word :=
  match best with
  | none   => w
  | some b => if b.toInt < w.toInt then w else b

/-- `search(program, topology, PHASE_SET)` is issued (R174). -/
def State.startSearch (s : State) (image : List Word) (topology : Topology) (phaseSet : List Word) : StepResult :=
  if phaseSetWf phaseSet then
    .next { s with
      search := some { image := image, topology := topology, todo := permutations phaseSet, best := none, trial := false,
                       homeBefore := s.before, homeCore := s.core, homeAfter := s.after, homeOrch := s.orch }
      reply := none }
  else .refused .notAPhaseSet

/-- The search ends with `r`; the host's own cores and orchestrator are in the block again (R176). -/
def State.endSearch (s : State) (q : Search) (r : Option Reply) : State :=
  { s with before := q.homeBefore, core := q.homeCore, after := q.homeAfter, orch := q.homeOrch, search := none,
           reply := r }

/-- One step of the search while no drive is in progress: take a trial's reply (R174, R175), issue the next trial's
`construct` and `drive` (R174), or return the maximum. -/
def State.searchStep (s : State) (q : Search) : StepResult :=
  if q.trial then
    match s.reply with
    | some (.signal w) => .next { s with search := some { q with best := some (betterSignal q.best w), trial := false } }
    | some (.fault f)  => .next (s.endSearch q (some (.fault f)))
    | none             => .fault .noReply
  else
    match q.todo with
    | []      => .next (s.endSearch q (q.best.map Reply.signal))
    | p :: ps =>
      ({ s with search := some { q with todo := ps, trial := true } }.constructNet q.image q.topology p.length).startDrive p

end Sys2Proof.Machine
end

