-- ==== Sys2Proof/Machine/HostPort.lean ====
section
/-! DEFINITION. The host at the block's ports (R30 to R34, R178), and what the block does while no core runs. -/

namespace Sys2Proof.Machine

/-- The host acts on the selected core. The cores of a network take commands from the orchestrator only (R178). -/
def State.onOwnCore (s : State) (f : State → StepResult) : StepResult :=
  match s.orch with
  | some _ => .refused .coreBelongsToNetwork
  | none   => f s

/-- The host acts on the selected core as on one it has constructed; a core never constructed is refused (R224). -/
def State.onConstructed (s : State) (f : State → StepResult) : StepResult :=
  s.onOwnCore fun s => if s.core.constructed then f s else .refused .neverConstructed

/-- `construct(image)` (R30, R220): a core right after construct takes the place of the selected one (R223: the old one is
gone, it is not constructed again); the channels are the host's and stay (R31, R32). -/
def VmCore.reconstruct (c : VmCore) (image : List Word) : VmCore :=
  { VmCore.construct image with inq := c.inq, outq := c.outq }

/-- The host's own core of index `i` becomes the selected one. -/
def State.selectCore (s : State) (i : Nat) : StepResult :=
  match s.cores[i]? with
  | some c => .next { s with before := s.cores.take i, core := c, after := s.cores.drop (i + 1) }
  | none   => .refused .noSuchCore

/-- One command of the host, given while no run, drive or search is in progress (R33, R230). A `construct` on a network
drops the network and with it the reply of its last drive or search: the spec is silent on both, and they are the model's
choice (DESIGN CHOICE, logs 11 and 16). -/
def State.command (s : State) : Cmd → StepResult
  | .construct image =>
    match s.orch with
    | none   => .next (s.withCore (s.core.reconstruct image))
    | some _ => .next { s with before := [], core := VmCore.construct image, after := [], orch := none, reply := none }
  | .feed vs         => s.onOwnCore fun s => .next (s.withCore (s.core.setInq (s.core.inq ++ vs)))
  | .freshOutput     => s.onOwnCore fun s => .next (s.withCore { s.core with outq := [] })
  | .run             => s.onConstructed fun s => .next (s.withCore (s.core.startRun s.params.runOnTerminated))
  | .clone           => s.onConstructed fun s => .next { s with after := s.after ++ [s.core.clone] }
  | .select i        => s.onOwnCore fun s => s.selectCore i
  | .constructNet image topology n => .next (s.constructNet image topology n)
  | .drive phases    => s.startDrive phases
  | .search image topology phaseSet => s.startSearch image topology phaseSet

/-- The block while no core runs and nothing is being driven or searched: it takes the host's next command, and with none
it waits (R213: nothing inside the core wakes it). -/
def State.hostStep (s : State) : StepResult :=
  match s.cmds with
  | []      => .next s
  | k :: ks => { s with cmds := ks }.command k

/-- The search, if one is in progress, else the host. -/
def State.searchOrHost (s : State) : StepResult :=
  match s.search with
  | some q => s.searchStep q
  | none   => s.hostStep

/-- One step of the block while no core runs: the orchestrator if it is driving, else the search, else the host. -/
def State.idleStep (s : State) : StepResult :=
  match s.orch with
  | some o => if o.netstatus = .driving then s.orchStep o else s.searchOrHost
  | none   => s.searchOrHost

end Sys2Proof.Machine
end

