-- ==== Sys2Proof/Machine/Step.lean ====
section
/-! DEFINITION. One step of the block. -/

namespace Sys2Proof.Machine

/-- One step: one instruction of the running core (R7, R88); while no core runs, one action of the orchestrator, the
search or the host (R9: one agent at a time). -/
def step (s : State) : Host.Outcome State Fault Refusal :=
  if s.core.status = .running then s.coreStep else s.idleStep

/-- `s` with the instruction whose bits are `w` loaded where the selected core fetches next, and a run in progress. -/
def State.withFetchWord (s : State) (nbits w : Nat) : State :=
  s.withCore (s.core.withWords s.params.memLimit (tableWords nbits w))

end Sys2Proof.Machine
end

