-- ==== Sys2Proof/Machine/Assembly.lean ====
section
/-! DEFINITION. The spec's own assembly notation and pseudo-instructions (R75, R76). They carry no semantics: the integer
list is normative (R75, D27). -/

namespace Sys2Proof

/-- An Immediate operand `#v`. -/
def Operand.imm (v : Word) : Operand := ⟨.immediate, v⟩

/-- `MOV s, d` is `ADD s, #0, d` (R76). -/
def Instr.mov (a d : Operand) : Instr := .add a (.imm 0) d

/-- `JMP t` is `JT #1, t` (R76). -/
def Instr.jmp (t : Operand) : Instr := .jt (.imm 1) t

/-- `NOP` is `JF #1, #0`, never taken (R76). -/
def Instr.nop : Instr := .jf (.imm 1) (.imm 0)

/-- An operand's spelling by mode (R75). -/
def Operand.spelling (o : Operand) : String :=
  match o.mode with
  | .position  => "[" ++ toString o.raw.toInt ++ "]"
  | .immediate => "#" ++ toString o.raw.toInt
  | .relative  =>
    if o.raw.toInt < 0 then "[rb" ++ toString o.raw.toInt ++ "]" else "[rb+" ++ toString o.raw.toInt ++ "]"

/-- An instruction's spelling: the mnemonic of R64, then the operands in position order (R75). -/
def Instr.spelling : Instr → String
  | .add a b d => "ADD " ++ a.spelling ++ ", " ++ b.spelling ++ ", " ++ d.spelling
  | .mul a b d => "MUL " ++ a.spelling ++ ", " ++ b.spelling ++ ", " ++ d.spelling
  | .inp d     => "IN " ++ d.spelling
  | .out a     => "OUT " ++ a.spelling
  | .jt a b    => "JT " ++ a.spelling ++ ", " ++ b.spelling
  | .jf a b    => "JF " ++ a.spelling ++ ", " ++ b.spelling
  | .lt a b d  => "LT " ++ a.spelling ++ ", " ++ b.spelling ++ ", " ++ d.spelling
  | .eq a b d  => "EQ " ++ a.spelling ++ ", " ++ b.spelling ++ ", " ++ d.spelling
  | .arb a     => "ARB " ++ a.spelling
  | .halt      => "HALT"

end Sys2Proof
end

