-- ==== Sys2Proof/Machine/Codes.lean ====
section
/-! DEFINITION. The numbers the host reads at the status outputs (R27, R160, R191). They are the spec's own (D28, D29). -/

namespace Sys2Proof.Machine

/-- `status` codes (R27). -/
def Status.code : Status → Nat
  | .ready => 0
  | .running => 1
  | .awaitingInput => 2
  | .terminated => 3
  | .faulted => 4

/-- `netstatus` codes (R160). -/
def NetStatus.code : NetStatus → Nat
  | .built => 0
  | .driving => 1
  | .done => 2
  | .faulted => 3

/-- `cause.code` (R28, R191). -/
def causeCode : Cause → Nat
  | .illegalOpcode _ => 1
  | .illegalMode _ _ => 2
  | .immediateWrite _ _ => 3
  | .negativeAddress _ => 4
  | .outOfCapacity _ => 5
  | .overflow _ _ _ => 6
  | .runAfterTerminated => 7

/-- The codes of the orchestrator's faults (R191). -/
def netFaultCode : NetFault → Nat
  | .coreFault _ _ => 16
  | .noSignal _ => 17
  | .configError => 18

/-- What the host can read of `cause`: the register when `status = Faulted`, nothing before (R28, R33). -/
def VmCore.readCause (c : VmCore) : Option Cause := if c.status = .faulted then c.cause else none

/-- The exit status of a core whose run has returned without a fault (R18, R33). -/
def VmCore.exitStatus (c : VmCore) : Option ExitStatus :=
  match c.status with
  | .terminated    => some .terminated
  | .awaitingInput => some .awaitingInput
  | .ready | .running | .faulted => none

end Sys2Proof.Machine
end

