-- ==== Sys2Proof/Safety.lean ====
section
/-! DEFINITION. What counts as a safe state and a run: the invariant every step keeps, and the steps of one run. -/

namespace Sys2Proof.Machine

/-- A core is sound: its memory is in canonical form (log 1), `cause` is valid exactly when `status = Faulted` (R27, R28),
and a core that was never constructed still has the status it has at reset (log 3): nothing runs it (R224). -/
def VmCore.Sound (c : VmCore) : Prop :=
  c.mem.wf ∧ (c.cause.isSome ↔ c.status = .faulted) ∧ (c.constructed = false → c.status = .ready)

/-- A core that stands by: sound, and no run of it is in progress (R166: no two cores ever run at once). -/
def VmCore.Parked (c : VmCore) : Prop := c.Sound ∧ c.status ≠ .running

/-- The orchestrator agrees with the cores: their number is `N` (R160; one stays when `N = 0`, log 13), each was
constructed (R161), a network not driven yet stands at core 0, a driving one has its `N` phases, a signal, the statuses of
the cores before the selected one, and never waits for a run that was not issued; only a driving one waits (R163, R178). -/
structure Orch.Fits (o : Orch) (before : List VmCore) (core : VmCore) (after : List VmCore) : Prop where
  count   : before.length + 1 + after.length = max 1 o.n
  made    : ∀ c ∈ before ++ core :: after, c.constructed = true
  built   : o.netstatus = .built → before = []
  phases  : o.netstatus = .driving → o.phases.length = o.n ∧ 1 ≤ o.n
  signal  : o.netstatus = .driving → o.signal.isSome
  passed  : o.netstatus = .driving → o.st.length = before.length
  issued  : o.netstatus = .driving → o.waiting = true → core.status ≠ .ready
  idle    : o.netstatus ≠ .driving → o.waiting = false

/-- The search agrees with the rest: the host's own cores and orchestrator are sound and at rest, and a trial that was
issued is being driven or has its reply (R174, R175). -/
structure Search.Fits (q : Search) (orch : Option Orch) (reply : Option Reply) : Prop where
  homeBefore : ∀ c ∈ q.homeBefore, c.Parked
  homeCore   : q.homeCore.Parked
  homeAfter  : ∀ c ∈ q.homeAfter, c.Parked
  homeOrch   : ∀ o, q.homeOrch = some o → o.Fits q.homeBefore q.homeCore q.homeAfter ∧ o.netstatus ≠ .driving
  trial      : q.trial = true → reply.isSome ∨ ∃ o, orch = some o ∧ o.netstatus = .driving

/-- The invariant of the whole block. -/
structure State.Inv (s : State) : Prop where
  before : ∀ c ∈ s.before, c.Parked
  core   : s.core.Sound
  after  : ∀ c ∈ s.after, c.Parked
  orch   : ∀ o, s.orch = some o → o.Fits s.before s.core s.after
  search : ∀ q, s.search = some q → q.Fits s.orch s.reply

/-- `a` is a valid address under `MEM_LIMIT = lim` (R15). -/
def ValidAddr (lim : Option Nat) (a : Int) : Prop := 0 ≤ a ∧ a ≤ addrMax ∧ ∀ n, lim = some n → a < n

/-- The write target `d` of core `c` is the valid address `k` (R84, R86). -/
def VmCore.TargetAt (lim : Option Nat) (c : VmCore) (d : Operand) (k : Nat) : Prop :=
  effectiveAddress c.rb d = some (k : Int) ∧ ValidAddr lim k

/-- A step of `s` reports the fault `f` to the host (R89, R203): `status = Faulted` and `cause` holds it, no input was
taken (R200), and nothing outside the selected core changed. Nothing is said of the faulted core's `Mem`, `ip`, `rb` and
`outq`: the spec guarantees none of them (R201, R202). -/
def Reports (r : StepResult) (s : State) (f : Cause) : Prop :=
  ∃ c, r = .next (s.withCore c) ∧ c.status = .faulted ∧ c.cause = some f ∧ c.inq = s.core.inq

/-- Two cores that are one and the same as far as the spec guarantees: of a faulted core, status, cause and the input that
was not taken (R200, R201); of every other core, everything. -/
def VmCore.Alike (c d : VmCore) : Prop :=
  c.status = d.status ∧ c.cause = d.cause ∧ c.inq = d.inq ∧ (c.status ≠ .faulted → c = d)

/-- Two blocks that differ in nothing but what the spec does not guarantee of the selected core, if it is faulted. -/
def State.Alike (s t : State) : Prop := ∃ d, t = s.withCore d ∧ s.core.Alike d

/-- The steps of one run (R89): every step is made from a state in which the selected core is running. -/
inductive CoreSteps : Nat → State → State → Prop where
  | refl (s : State) : CoreSteps 0 s s
  | next {k : Nat} {s t u : State} : s.core.status = .running → step s = .next t → CoreSteps k t u →
      CoreSteps (k + 1) s u

/-- The block takes the host's next command: no run, no drive and no search is in progress (R33, R230). -/
def State.AtRest (s : State) : Prop :=
  s.core.status ≠ .running ∧ s.search = none ∧ ∀ o, s.orch = some o → o.netstatus ≠ .driving

/-- The orchestrator drives and waits for the run of the selected core, which has returned with exit status `e`
(R163, R178). -/
def State.Returned (s : State) (o : Orch) (e : ExitStatus) : Prop :=
  s.orch = some o ∧ o.netstatus = .driving ∧ o.waiting = true ∧ s.core.exitStatus = some e

/-- The host appends values to the selected core's input (R31). -/
def State.feed (s : State) (xs : List Word) : State := s.withCore (s.core.setInq (s.core.inq ++ xs))

/-- The host tells the selected core to run (R89, R91). -/
def State.resume (s : State) : State := s.withCore (s.core.startRun s.params.runOnTerminated)

end Sys2Proof.Machine
end

