-- ==== Sys2Proof/Certificates/Slice0/Obligations.lean ====
section
/-! DEFINITION. What is claimed of the model, for the provers. Each statement's docstring names the rules of spec/ it
formalises. No statement reads `Mem`, `ip`, `rb` or `outq` of a faulted core (R201, R202). -/

open Sys2Proof Sys2Proof.Machine

/-! ### Encoding -/

/-- R60, R65, R74: decoding the words of a well-formed instruction gives it back, every operand word whole, and leaves the
words after it. -/
def Obligations.DecodeOfEncodeIsIdentity : Prop :=
  ∀ (i : Instr) (rest : List Word), i.wf = true → decode (encode i ++ rest) = .ok (i, rest)

/-- R60, R66, R72, R74, the other direction: what is decoded is well formed, its operand words stand unchanged after an
instruction word that the decoder accepts, and its opcode and modes are those of that word's canonical form. -/
def Obligations.DecodedWordsAreTheInstruction : Prop :=
  ∀ (ws : List Word) (i : Instr) (rest : List Word), decode ws = .ok (i, rest) →
    i.wf = true ∧ ∃ w h, ws = w :: (i.operandWords ++ rest) ∧ decodeWord w = .ok h ∧ h.canonical = i.head

/-- R68, R69: a negative instruction word, and a non-negative one whose `w mod 100` is 0 or 10 to 98, raise
`IllegalOpcode(w)`. -/
def Obligations.WordsWithoutAnOpcodeAreIllegal : Prop :=
  ∀ w : Word,
    (w.toInt < 0 → decodeWord w = .error (.illegalOpcode w)) ∧
    (0 ≤ w.toInt → (w.toNat % 100 = 0 ∨ 10 ≤ w.toNat % 100 ∧ w.toNat % 100 ≤ 98) →
      decodeWord w = .error (.illegalOpcode w))

/-- R70: of a word with a known opcode, the lowest operand position whose mode digit is 3 to 9 is reported, whether the
opcode uses that position or not. -/
def Obligations.LowestIllegalModeDigitIsReported : Prop :=
  ∀ (w : Word) (i : Nat), 0 ≤ w.toInt → (1 ≤ w.toNat % 100 ∧ w.toNat % 100 ≤ 9 ∨ w.toNat % 100 = 99) → i < 3 →
    (∀ j < i, w.toNat / 10 ^ (j + 2) % 10 ≤ 2) → 3 ≤ w.toNat / 10 ^ (i + 2) % 10 →
    decodeWord w = .error (.illegalMode w i)

/-- R71, in the order of R67: a word of at least 100000 with a known opcode and legal mode digits raises
`IllegalMode(w, 3)`. -/
def Obligations.DigitsAboveTheModesAreIllegal : Prop :=
  ∀ w : Word, (1 ≤ w.toNat % 100 ∧ w.toNat % 100 ≤ 9 ∨ w.toNat % 100 = 99) →
    (∀ j < 3, w.toNat / 10 ^ (j + 2) % 10 ≤ 2) → 100000 ≤ w.toInt → decodeWord w = .error (.illegalMode w 3)

/-- R72, in the order of R67: of a word with legal digits, a 1 at the write position raises `ImmediateWrite(w, p)`:
position 2 of opcodes 1, 2, 7 and 8, position 0 of opcode 3. -/
def Obligations.ImmediateWriteTargetsAreIllegal : Prop :=
  ∀ w : Word, 0 ≤ w.toInt → w.toInt < 100000 → (∀ j < 3, w.toNat / 10 ^ (j + 2) % 10 ≤ 2) →
    ((w.toNat % 100 = 1 ∨ w.toNat % 100 = 2 ∨ w.toNat % 100 = 7 ∨ w.toNat % 100 = 8) →
      w.toNat / 10000 % 10 = 1 → decodeWord w = .error (.immediateWrite w 2)) ∧
    (w.toNat % 100 = 3 → w.toNat / 100 % 10 = 1 → decodeWord w = .error (.immediateWrite w 0))

/-- R74: an alias word decodes, with any words after it, exactly as its canonical word does, so it executes exactly as
its canonical word; the canonical word is `Enc` of its opcode and modes with digit 0 in every unused position. -/
def Obligations.AliasWordsDecodeAsTheirCanonicalWord : Prop :=
  ∀ (w : Word) (h : Head), decodeWord w = .ok h →
    (∀ ws, decode (w :: ws) = decode (encodeHead h.canonical :: ws)) ∧ h.canonical.op = h.op ∧
    (∀ i < h.op.arity, h.canonical.mode i = h.mode i) ∧
    ∀ i < 3, h.op.arity ≤ i → h.canonical.mode i = .position

/-- R61, R63, R64, on words written out from the rules' digit layout: one of every opcode, and an alias of HALT. -/
def Obligations.SampleWordsDecodeAsTheDigitsSay : Prop :=
  decode [1002, 4, 3, 4] = .ok (.mul ⟨.position, 4⟩ ⟨.immediate, 3⟩ ⟨.position, 4⟩, []) ∧
  decode [21101, 3, 4, 0] = .ok (.add ⟨.immediate, 3⟩ ⟨.immediate, 4⟩ ⟨.relative, 0⟩, []) ∧
  decode [203, 7, 99] = .ok (.inp ⟨.relative, 7⟩, [99]) ∧
  decode [204, -1] = .ok (.out ⟨.relative, -1⟩, []) ∧
  decode [1005, 28, 6] = .ok (.jt ⟨.position, 28⟩ ⟨.immediate, 6⟩, []) ∧
  decode [1106, 0, 36] = .ok (.jf ⟨.immediate, 0⟩ ⟨.immediate, 36⟩, []) ∧
  decode [107, 8, 21, 20] = .ok (.lt ⟨.immediate, 8⟩ ⟨.position, 21⟩ ⟨.position, 20⟩, []) ∧
  decode [1008, 21, 8, 20] = .ok (.eq ⟨.position, 21⟩ ⟨.immediate, 8⟩ ⟨.position, 20⟩, []) ∧
  decode [109, 5] = .ok (.arb ⟨.immediate, 5⟩, []) ∧
  decode [22299] = .ok (.halt, [])

/-! ### Fetch and the step -/

/-- R80, R81, R82, R88: when the words at `ip` decode to `i` and all of them are at valid addresses, one step of a running
core is `exec i`. -/
def Obligations.StepRunsTheDecodedInstruction : Prop :=
  ∀ (s : State) (i : Instr) (rest : List Word), s.core.status = .running →
    (∀ k < (encode i).length, ValidAddr s.params.memLimit (s.core.ip.toInt + k)) →
    decode ((List.range 4).map fun k => s.core.mem.read (s.core.ip.toNat + k)) = .ok (i, rest) →
    step s = exec i s

/-- R23, R80, R122: a fetch at a negative `ip` reports `NegativeAddress(ip)`, a fetch above the capacity
`OutOfCapacity(ip)`. -/
def Obligations.FetchOutsideTheCapacityFaults : Prop :=
  ∀ s : State, s.core.status = .running →
    (s.core.ip.toInt < 0 → Reports (step s) s (.negativeAddress s.core.ip.toInt)) ∧
    (∀ n, s.params.memLimit = some n → (n : Int) ≤ s.core.ip.toInt →
      Reports (step s) s (.outOfCapacity s.core.ip.toInt))

/-- R190, R192, R193, R194: when the decoder rejects the word at a valid `ip`, the step reports the decoder's fault,
whatever follows the word and whatever the input holds. -/
def Obligations.RejectedWordFaultsTheRun : Prop :=
  ∀ (s : State) (f : Cause), s.core.status = .running → ValidAddr s.params.memLimit s.core.ip.toInt →
    decodeWord (s.core.mem.read s.core.ip.toNat) = .error f → Reports (step s) s f

/-- R82, R199: the first operand word at an invalid address is reported as `OutOfCapacity` of that address. -/
def Obligations.OperandWordBeyondTheCapacityFaults : Prop :=
  ∀ (s : State) (h : Head) (k : Nat), s.core.status = .running → k < h.op.arity →
    (∀ j ≤ k, ValidAddr s.params.memLimit (s.core.ip.toInt + j)) →
    decodeWord (s.core.mem.read s.core.ip.toNat) = .ok h →
    ¬ ValidAddr s.params.memLimit (s.core.ip.toInt + k + 1) →
    Reports (step s) s (.outOfCapacity (s.core.ip.toInt + k + 1))

/-! ### Addresses and operands -/

/-- R15: `CheckAddr` does nothing for a valid address, raises `NegativeAddress(a)` below 0, and `OutOfCapacity(a)` above
`ADDR_MAX` or at or above the limit. -/
def Obligations.CheckAddrRaisesByRange : Prop :=
  ∀ (lim : Option Nat) (a : Int),
    (a < 0 → checkAddr lim a = .error (.negativeAddress a)) ∧
    (addrMax < a → checkAddr lim a = .error (.outOfCapacity a)) ∧
    (∀ n, lim = some n → 0 ≤ a → (n : Int) ≤ a → checkAddr lim a = .error (.outOfCapacity a)) ∧
    (0 ≤ a → a ≤ addrMax → (∀ n, lim = some n → a < n) → checkAddr lim a = .ok a.toNat)

/-- R84, R85: an Immediate operand is its own word; a Position operand is read at its word, a Relative one at `rb` plus
its word, in exact arithmetic, after `CheckAddr` of that address. -/
def Obligations.ReadOperandFollowsItsMode : Prop :=
  ∀ (lim : Option Nat) (c : VmCore) (raw : Word),
    c.readOperand lim ⟨.immediate, raw⟩ = .ok raw ∧
    (ValidAddr lim raw.toInt → c.readOperand lim ⟨.position, raw⟩ = .ok (c.mem.read raw.toInt.toNat)) ∧
    (ValidAddr lim (c.rb.toInt + raw.toInt) →
      c.readOperand lim ⟨.relative, raw⟩ = .ok (c.mem.read (c.rb.toInt + raw.toInt).toNat)) ∧
    (∀ f, checkAddr lim raw.toInt = .error f → c.readOperand lim ⟨.position, raw⟩ = .error f) ∧
    (∀ f, checkAddr lim (c.rb.toInt + raw.toInt) = .error f → c.readOperand lim ⟨.relative, raw⟩ = .error f)

/-- R199 (stages 4 to 6): of a storing instruction, a bad first read operand is reported before a bad second one, both
before a bad write target, and all of them before the opcode's own checks; a bad target of IN is reported whether or not
input is available (R110); of the other instructions the first bad read operand is reported. -/
def Obligations.FirstFailingOperandIsReported : Prop :=
  ∀ (s : State) (a b d : Operand) (i : Instr) (ea : Int) (f : Cause), effectiveAddress s.core.rb d = some ea →
    (s.core.readOperand s.params.memLimit a = .error f →
      i = .add a b d ∨ i = .mul a b d ∨ i = .lt a b d ∨ i = .eq a b d ∨ i = .jt a b ∨ i = .jf a b ∨ i = .out a ∨
        i = .arb a → Reports (exec i s) s f) ∧
    (∀ x, s.core.readOperand s.params.memLimit a = .ok x → s.core.readOperand s.params.memLimit b = .error f →
      i = .add a b d ∨ i = .mul a b d ∨ i = .lt a b d ∨ i = .eq a b d ∨ i = .jt a b ∨ i = .jf a b →
      Reports (exec i s) s f) ∧
    (∀ x y, s.core.readOperand s.params.memLimit a = .ok x → s.core.readOperand s.params.memLimit b = .ok y →
      checkAddr s.params.memLimit ea = .error f → i = .add a b d ∨ i = .mul a b d ∨ i = .lt a b d ∨ i = .eq a b d →
      Reports (exec i s) s f) ∧
    (checkAddr s.params.memLimit ea = .error f → i = .inp d → Reports (exec i s) s f)

/-- R72, R83, R194: an instruction whose write target is Immediate reports `ImmediateWrite` of its word and the write
position, before every other check. No decoded instruction is one; the model gives the ill-formed term this meaning. -/
def Obligations.ImmediateWriteInstructionFaults : Prop :=
  ∀ (i : Instr) (s : State) (p : Nat), i.wf = false → i.head.op.writePosition = some p →
    Reports (exec i s) s (.immediateWrite (encodeHead i.head) p)

/-! ### Results -/

/-- R13: the WORD a rule stores for an exact result in range has that value. -/
def Obligations.WordOfAnExactResultHasItsValue : Prop :=
  ∀ v : Int, Fits64 v → (wordOf v).toInt = v

/-- R100, R102, R87: ADD stores the exact signed sum of its two operand values at its write target and advances by 4; a sum
that is no WORD is `Overflow`, and then an advance past `ADDR_MAX` is `OutOfCapacity`. -/
def Obligations.AddStoresTheExactSum : Prop :=
  ∀ (s : State) (a b d : Operand) (x y : Word) (k : Nat),
    s.core.readOperand s.params.memLimit a = .ok x → s.core.readOperand s.params.memLimit b = .ok y →
    s.core.TargetAt s.params.memLimit d k →
    (Fits64 (x.toInt + y.toInt) → s.core.ip.toInt + 4 ≤ addrMax →
      exec (.add a b d) s = .next (s.withCore { s.core with
        mem := s.core.mem.write k (wordOf (x.toInt + y.toInt)), ip := wordOf (s.core.ip.toInt + 4) })) ∧
    (¬ Fits64 (x.toInt + y.toInt) → Reports (exec (.add a b d) s) s (.overflow .add x y)) ∧
    (Fits64 (x.toInt + y.toInt) → addrMax < s.core.ip.toInt + 4 →
      Reports (exec (.add a b d) s) s (.outOfCapacity (s.core.ip.toInt + 4)))

/-- R101, R102, R87: MUL stores the exact signed product, with the faults of ADD. -/
def Obligations.MulStoresTheExactProduct : Prop :=
  ∀ (s : State) (a b d : Operand) (x y : Word) (k : Nat),
    s.core.readOperand s.params.memLimit a = .ok x → s.core.readOperand s.params.memLimit b = .ok y →
    s.core.TargetAt s.params.memLimit d k →
    (Fits64 (x.toInt * y.toInt) → s.core.ip.toInt + 4 ≤ addrMax →
      exec (.mul a b d) s = .next (s.withCore { s.core with
        mem := s.core.mem.write k (wordOf (x.toInt * y.toInt)), ip := wordOf (s.core.ip.toInt + 4) })) ∧
    (¬ Fits64 (x.toInt * y.toInt) → Reports (exec (.mul a b d) s) s (.overflow .mul x y)) ∧
    (Fits64 (x.toInt * y.toInt) → addrMax < s.core.ip.toInt + 4 →
      Reports (exec (.mul a b d) s) s (.outOfCapacity (s.core.ip.toInt + 4)))

/-- R130, R87: LT stores 1 if `val_0 < val_1`, signed, else 0, and advances by 4; it cannot overflow. -/
def Obligations.LtStoresTheSignedComparison : Prop :=
  ∀ (s : State) (a b d : Operand) (x y : Word) (k : Nat),
    s.core.readOperand s.params.memLimit a = .ok x → s.core.readOperand s.params.memLimit b = .ok y →
    s.core.TargetAt s.params.memLimit d k →
    (s.core.ip.toInt + 4 ≤ addrMax →
      exec (.lt a b d) s = .next (s.withCore { s.core with
        mem := s.core.mem.write k (if x.toInt < y.toInt then 1 else 0), ip := wordOf (s.core.ip.toInt + 4) })) ∧
    (addrMax < s.core.ip.toInt + 4 → Reports (exec (.lt a b d) s) s (.outOfCapacity (s.core.ip.toInt + 4)))

/-- R131, R87: EQ stores 1 if the two operand values are equal, else 0, and advances by 4. -/
def Obligations.EqStoresTheEquality : Prop :=
  ∀ (s : State) (a b d : Operand) (x y : Word) (k : Nat),
    s.core.readOperand s.params.memLimit a = .ok x → s.core.readOperand s.params.memLimit b = .ok y →
    s.core.TargetAt s.params.memLimit d k →
    (s.core.ip.toInt + 4 ≤ addrMax →
      exec (.eq a b d) s = .next (s.withCore { s.core with
        mem := s.core.mem.write k (if x.toInt = y.toInt then 1 else 0), ip := wordOf (s.core.ip.toInt + 4) })) ∧
    (addrMax < s.core.ip.toInt + 4 → Reports (exec (.eq a b d) s) s (.outOfCapacity (s.core.ip.toInt + 4)))

/-- R110, R87, R204: IN with a value available stores the head of the input at its target and advances by 2; with no
input it stops the run with `AwaitingInput` and changes nothing else, which is no fault; an advance past `ADDR_MAX` is
`OutOfCapacity`, whether or not input is available. -/
def Obligations.InStoresTheNextInputOrSuspends : Prop :=
  ∀ (s : State) (d : Operand) (k : Nat), s.core.TargetAt s.params.memLimit d k →
    (∀ v q, s.core.inq = v :: q → s.core.ip.toInt + 2 ≤ addrMax →
      exec (.inp d) s = .next (s.withCore { s.core with
        inq := q, mem := s.core.mem.write k v, ip := wordOf (s.core.ip.toInt + 2) })) ∧
    (s.core.inq = [] → s.core.ip.toInt + 2 ≤ addrMax →
      exec (.inp d) s = .next (s.withCore { s.core with status := .awaitingInput })) ∧
    (addrMax < s.core.ip.toInt + 2 → Reports (exec (.inp d) s) s (.outOfCapacity (s.core.ip.toInt + 2)))

/-- R111, R87: OUT appends its operand's value to the output and advances by 2. -/
def Obligations.OutAppendsItsOperand : Prop :=
  ∀ (s : State) (a : Operand) (x : Word), s.core.readOperand s.params.memLimit a = .ok x →
    (s.core.ip.toInt + 2 ≤ addrMax →
      exec (.out a) s = .next (s.withCore { s.core with
        outq := s.core.outq ++ [x], ip := wordOf (s.core.ip.toInt + 2) })) ∧
    (addrMax < s.core.ip.toInt + 2 → Reports (exec (.out a) s) s (.outOfCapacity (s.core.ip.toInt + 2)))

/-- R120, R122, R87: JT with a nonzero condition loads the target's value into `ip` unchecked, whatever it is, and does not
advance; with condition 0 it advances by 3. -/
def Obligations.JtJumpsWhenNonzero : Prop :=
  ∀ (s : State) (a b : Operand) (x y : Word),
    s.core.readOperand s.params.memLimit a = .ok x → s.core.readOperand s.params.memLimit b = .ok y →
    (x ≠ 0 → exec (.jt a b) s = .next (s.withCore { s.core with ip := y })) ∧
    (x = 0 → s.core.ip.toInt + 3 ≤ addrMax →
      exec (.jt a b) s = .next (s.withCore { s.core with ip := wordOf (s.core.ip.toInt + 3) })) ∧
    (x = 0 → addrMax < s.core.ip.toInt + 3 → Reports (exec (.jt a b) s) s (.outOfCapacity (s.core.ip.toInt + 3)))

/-- R121, R122, R87: JF jumps when the condition is exactly 0, else it advances by 3. -/
def Obligations.JfJumpsWhenZero : Prop :=
  ∀ (s : State) (a b : Operand) (x y : Word),
    s.core.readOperand s.params.memLimit a = .ok x → s.core.readOperand s.params.memLimit b = .ok y →
    (x = 0 → exec (.jf a b) s = .next (s.withCore { s.core with ip := y })) ∧
    (x ≠ 0 → s.core.ip.toInt + 3 ≤ addrMax →
      exec (.jf a b) s = .next (s.withCore { s.core with ip := wordOf (s.core.ip.toInt + 3) })) ∧
    (x ≠ 0 → addrMax < s.core.ip.toInt + 3 → Reports (exec (.jf a b) s) s (.outOfCapacity (s.core.ip.toInt + 3)))

/-- R140, R197, R87: ARB adds its operand's value, read with the old base, to `rb` exactly and advances by 2; a base that
is no WORD is `Overflow(ARB, rb, val_0)`. -/
def Obligations.ArbAddsToTheBase : Prop :=
  ∀ (s : State) (a : Operand) (x : Word), s.core.readOperand s.params.memLimit a = .ok x →
    (Fits64 (s.core.rb.toInt + x.toInt) → s.core.ip.toInt + 2 ≤ addrMax →
      exec (.arb a) s = .next (s.withCore { s.core with
        rb := wordOf (s.core.rb.toInt + x.toInt), ip := wordOf (s.core.ip.toInt + 2) })) ∧
    (¬ Fits64 (s.core.rb.toInt + x.toInt) → Reports (exec (.arb a) s) s (.overflow .arb s.core.rb x)) ∧
    (Fits64 (s.core.rb.toInt + x.toInt) → addrMax < s.core.ip.toInt + 2 →
      Reports (exec (.arb a) s) s (.outOfCapacity (s.core.ip.toInt + 2)))

/-- R150: HALT stops the run with `Terminated`; `ip`, `rb`, `Mem` and the channels stay. -/
def Obligations.HaltTerminatesTheRun : Prop :=
  ∀ s : State, exec .halt s = .next (s.withCore { s.core with status := .terminated })

/-- R76: the pseudo-instruction `NOP` (`JF #1, #0`) only advances by 3, and `JMP t` (`JT #1, t`) loads its target. -/
def Obligations.PseudoInstructionsActAsNamed : Prop :=
  ∀ s : State,
    (s.core.ip.toInt + 3 ≤ addrMax →
      exec Instr.nop s = .next (s.withCore { s.core with ip := wordOf (s.core.ip.toInt + 3) })) ∧
    (∀ t y, s.core.readOperand s.params.memLimit t = .ok y →
      exec (Instr.jmp t) s = .next (s.withCore { s.core with ip := y })) ∧
    (∀ a d x k, s.core.readOperand s.params.memLimit a = .ok x → s.core.TargetAt s.params.memLimit d k →
      s.core.ip.toInt + 4 ≤ addrMax →
      exec (Instr.mov a d) s = .next (s.withCore { s.core with
        mem := s.core.mem.write k x, ip := wordOf (s.core.ip.toInt + 4) }))

/-! ### Frames -/

/-- R14, R47, R55, the frame of ADD, MUL, LT and EQ: when no fault is taken, every register but `ip`, both channels and
the rest of the block are unchanged, and every word of memory but the one at the target's address reads as before. -/
def Obligations.StoringInstructionsFrame : Prop :=
  ∀ (s t : State) (a b d : Operand) (i : Instr),
    i = .add a b d ∨ i = .mul a b d ∨ i = .lt a b d ∨ i = .eq a b d → exec i s = .next t → t.core.status ≠ .faulted →
    t = s.withCore { s.core with mem := t.core.mem, ip := t.core.ip } ∧
    ∀ ea, effectiveAddress s.core.rb d = some ea → ∀ k : Nat, (k : Int) ≠ ea → t.core.mem.read k = s.core.mem.read k

/-- R14, R47, R110, the frame of IN: when no fault is taken, only `ip`, `status`, the input and the word at the target's
address can change; `status` changes only when the input is empty. -/
def Obligations.InputFrame : Prop :=
  ∀ (s t : State) (d : Operand), exec (.inp d) s = .next t → t.core.status ≠ .faulted →
    t = s.withCore { s.core with
      mem := t.core.mem, ip := t.core.ip, inq := t.core.inq, status := t.core.status } ∧
    (s.core.inq ≠ [] → t.core.status = s.core.status) ∧
    (∀ ea, effectiveAddress s.core.rb d = some ea → ∀ k : Nat, (k : Int) ≠ ea → t.core.mem.read k = s.core.mem.read k) ∧
    (s.core.inq = [] → ∀ k, t.core.mem.read k = s.core.mem.read k)

/-- R14, R47, the frame of the instructions that store nothing: when no fault is taken, every word of memory reads as
before, and beside `ip` only OUT's output, ARB's `rb` and HALT's `status` change. -/
def Obligations.NonStoringInstructionsFrame : Prop :=
  ∀ (s t : State) (a b : Operand), t.core.status ≠ .faulted →
    (exec (.out a) s = .next t →
      t = s.withCore { s.core with ip := t.core.ip, outq := t.core.outq } ∧
        ∀ k, t.core.mem.read k = s.core.mem.read k) ∧
    (exec (.jt a b) s = .next t ∨ exec (.jf a b) s = .next t →
      t = s.withCore { s.core with ip := t.core.ip } ∧ ∀ k, t.core.mem.read k = s.core.mem.read k) ∧
    (exec (.arb a) s = .next t →
      t = s.withCore { s.core with ip := t.core.ip, rb := t.core.rb } ∧
        ∀ k, t.core.mem.read k = s.core.mem.read k) ∧
    (exec .halt s = .next t →
      t = s.withCore { s.core with status := t.core.status } ∧ ∀ k, t.core.mem.read k = s.core.mem.read k)

/-- R35, R162: no instruction reads or writes another core, the orchestrator, the search or the host's commands: in any two
blocks whose selected core and `MEM_LIMIT` are the same, an instruction leaves the same core (of a faulted one: what the
spec guarantees of it, R201), and the rest untouched. -/
def Obligations.ExecSeesOnlyItsOwnCore : Prop :=
  ∀ (i : Instr) (s s' : State), s.core = s'.core → s.params.memLimit = s'.params.memLimit →
    ∃ c d, exec i s = .next (s.withCore c) ∧ exec i s' = .next (s'.withCore d) ∧ c.Alike d

/-! ### Runs -/

/-- R88, R92: from a running core, the status stays `Running`, or becomes `AwaitingInput` at an IN with no input,
`Terminated` at a HALT, or `Faulted` with a valid cause; nothing outside the core changes. -/
def Obligations.RunningCoreTransitions : Prop :=
  ∀ s : State, s.core.status = .running →
    ∃ c, step s = .next (s.withCore c) ∧
      (c.status = .running ∨
        (c.status = .awaitingInput ∧ s.core.inq = [] ∧ ∃ d, s.core.fetch s.params.memLimit = .ok (.inp d)) ∨
        (c.status = .terminated ∧ s.core.fetch s.params.memLimit = .ok .halt) ∨
        (c.status = .faulted ∧ ∃ f, c.cause = some f))

/-- R24, R141: while a core runs, only ARB changes `rb`. -/
def Obligations.OnlyArbChangesTheBase : Prop :=
  ∀ s t : State, s.core.status = .running → step s = .next t → t.core.status ≠ .faulted → t.core.rb ≠ s.core.rb →
    ∃ a, s.core.fetch s.params.memLimit = .ok (.arb a)

/-- R31, R110, R112: a step leaves the input alone, or it is an IN that takes the head of the input, exactly one value,
and stores that value at its target. -/
def Obligations.InputsAreTakenInOrder : Prop :=
  ∀ s t : State, s.core.status = .running → step s = .next t →
    t.core.inq = s.core.inq ∨
      ∃ d v k, s.core.fetch s.params.memLimit = .ok (.inp d) ∧ s.core.inq = v :: t.core.inq ∧
        s.core.TargetAt s.params.memLimit d k ∧ t.core.mem.read k = v

/-- R32, R111, R113: a step that does not fault leaves the output alone, or it is an OUT that appends its operand's value,
exactly one. -/
def Obligations.OutputsAreAppendedInOrder : Prop :=
  ∀ s t : State, s.core.status = .running → step s = .next t → t.core.status ≠ .faulted →
    t.core.outq = s.core.outq ∨
      ∃ a v, s.core.fetch s.params.memLimit = .ok (.out a) ∧ s.core.readOperand s.params.memLimit a = .ok v ∧
        t.core.outq = s.core.outq ++ [v]

/-- R90, R229: a step that suspends a run changes the status and nothing else: `ip` is still the IN's address, and the
input was empty and still is. -/
def Obligations.SuspensionChangesOnlyTheStatus : Prop :=
  ∀ s t : State, s.core.status = .running → step s = .next t → t.core.status = .awaitingInput →
    s.core.inq = [] ∧ t = s.withCore { s.core with status := .awaitingInput }

/-- R95 ("no step except IN reads `inq`"): a step that does not suspend does the same whatever more input stands behind
the input there is (of a faulted core: in what the spec guarantees of it, R201). -/
def Obligations.LaterInputIsNotSeen : Prop :=
  ∀ (s t : State) (xs : List Word), s.core.status = .running → step s = .next t → t.core.status ≠ .awaitingInput →
    ∃ u, step (s.feed xs) = .next u ∧ (t.feed xs).Alike u

/-- R95, the suspend/resume law: a run that is suspended after `n` steps, given more input and resumed, reaches after `k`
more steps exactly the state that the one run with all the input reaches: `Mem`, `ip`, `rb`, `status`, the output and
what is left of the input (of a core that ends faulted: what the spec guarantees of it, R201). The pending IN is neither
skipped nor executed twice. -/
def Obligations.SuspendThenResumeIsOneRun : Prop :=
  ∀ (n k : Nat) (s t u : State) (xs : List Word), s.core.status = .running → CoreSteps n s t →
    t.core.status = .awaitingInput → CoreSteps k (t.feed xs).resume u →
    ∃ u', CoreSteps (n - 1 + k) (s.feed xs) u' ∧ u.Alike u'

/-- The host's commands on a core of its own. R89, R91, R93, R94, R224: `run` on a core never constructed is refused; on a
constructed `Ready` or suspended core it starts a run; on a `Terminated` core it follows `RUN_ON_TERMINATED` and executes
no step; on a `Faulted` core it changes nothing. R31, R92: whatever the status, `feed` appends to the input and changes
nothing else. The rest is the model's choice: that a run which starts or resumes leaves the output of earlier runs as it
was, and that the host's command `freshOutput` hands over an empty one and changes nothing else (log 26: no rule gives that
command); the bit that says a core was constructed (log 3); that the commands are a list in State (log 8); `select`, which turns to another of the cores,
each of which stays as it is (log 12); the refusals of a `select` of no core and of all these commands on a network's core
(log 19). -/
def Obligations.RunCommandFollowsTheStatus : Prop :=
  ∀ (s : State) (k : Cmd) (ks : List Cmd), s.AtRest → s.cmds = k :: ks →
    (s.orch = none →
      (k = .run → s.core.constructed = false → step s = .refused .neverConstructed) ∧
      (k = .run → s.core.constructed = true →
        ((s.core.status = .ready ∨ s.core.status = .awaitingInput) →
          step s = .next { s with cmds := ks, core := { s.core with status := .running } }) ∧
        (s.core.status = .terminated → s.params.runOnTerminated = .noop → step s = .next { s with cmds := ks }) ∧
        (s.core.status = .terminated → s.params.runOnTerminated = .fault →
          ∃ c, step s = .next { s with cmds := ks, core := c } ∧ c.status = .faulted ∧
            c.cause = some .runAfterTerminated) ∧
        (s.core.status = .faulted → step s = .next { s with cmds := ks })) ∧
      (∀ vs, k = .feed vs →
        step s = .next { s with cmds := ks, core := { s.core with inq := s.core.inq ++ vs } }) ∧
      (k = .freshOutput → step s = .next { s with cmds := ks, core := { s.core with outq := [] } }) ∧
      (∀ i c, k = .select i → s.cores[i]? = some c →
        step s = .next { s with cmds := ks, before := s.cores.take i, core := c, after := s.cores.drop (i + 1) }) ∧
      (∀ i, k = .select i → s.cores.length ≤ i → step s = .refused .noSuchCore)) ∧
    (s.orch ≠ none → (k = .run ∨ (∃ vs, k = .feed vs) ∨ k = .freshOutput ∨ ∃ i, k = .select i) →
      step s = .refused .coreBelongsToNetwork)

/-- No step changes a parameter. R11 has a model take each parameter as an argument; that they are data of State which no
step changes is the model's inference (DEDUCED, log 4). -/
def Obligations.ParametersNeverChange : Prop :=
  ∀ s t : State, step s = .next t → t.params = s.params

/-- R51, R54: a word that ADD, MUL, LT, EQ or IN stores `j` words into the instruction that follows it is what the next
fetch reads as that instruction's word `j` (the instruction word itself when `j = 0`), with nothing in between. -/
def Obligations.StoredWordIsTheNextFetched : Prop :=
  ∀ (s : State) (d : Operand) (j : Nat), 0 ≤ s.core.ip.toInt →
    (∀ a b x y, s.core.readOperand s.params.memLimit a = .ok x → s.core.readOperand s.params.memLimit b = .ok y →
      s.core.TargetAt s.params.memLimit d (s.core.ip.toInt + 4 + j).toNat → s.core.ip.toInt + 4 ≤ addrMax →
      (Fits64 (x.toInt + y.toInt) → ∃ t, exec (.add a b d) s = .next t ∧
        ∃ w, t.core.fetchWord t.params.memLimit j = .ok w ∧ w.toInt = x.toInt + y.toInt) ∧
      (Fits64 (x.toInt * y.toInt) → ∃ t, exec (.mul a b d) s = .next t ∧
        ∃ w, t.core.fetchWord t.params.memLimit j = .ok w ∧ w.toInt = x.toInt * y.toInt) ∧
      (∃ t, exec (.lt a b d) s = .next t ∧
        t.core.fetchWord t.params.memLimit j = .ok (if x.toInt < y.toInt then 1 else 0)) ∧
      (∃ t, exec (.eq a b d) s = .next t ∧
        t.core.fetchWord t.params.memLimit j = .ok (if x.toInt = y.toInt then 1 else 0))) ∧
    (∀ v q, s.core.inq = v :: q → s.core.TargetAt s.params.memLimit d (s.core.ip.toInt + 2 + j).toNat →
      s.core.ip.toInt + 2 ≤ addrMax →
      ∃ t, exec (.inp d) s = .next t ∧ t.core.fetchWord t.params.memLimit j = .ok v)

/-! ### Reset and the invariant -/

/-- R25, R42, R45, of the model's own form of memory: two memories in canonical form that read the same at every address
are the same data, so that equal blocks are equal states. -/
def Obligations.EqualMemoriesAreEqualData : Prop :=
  ∀ m m' : Memory, m.wf → m'.wf → (∀ a, m.read a = m'.read a) → m = m'

/-- R41, R42, R220: after `construct(image)`, memory is the image and 0 at every other address, `ip` and `rb` are 0, the
status is `Ready` and the cause is not valid; the host's channels are untouched. From then on the core counts as
constructed (R224). That it takes the selected core's place, and that on a network it takes the place of all of it, with
empty channels and no reply left, is the model's choice (logs 11 and 16). -/
def Obligations.ConstructLoadsTheImage : Prop :=
  ∀ (s : State) (image : List Word) (ks : List Cmd), s.AtRest → s.cmds = .construct image :: ks →
    ∃ c, (∀ a : Nat, (a : Int) ≤ addrMax → c.mem.read a = image.getD a 0) ∧
      c.ip = 0 ∧ c.rb = 0 ∧ c.status = .ready ∧ c.cause = none ∧ c.constructed = true ∧
      (s.orch = none → step s = .next { s with cmds := ks, core := c } ∧ c.inq = s.core.inq ∧ c.outq = s.core.outq) ∧
      (s.orch ≠ none →
        step s = .next { s with cmds := ks, before := [], core := c, after := [], orch := none, reply := none } ∧
          c.inq = [] ∧ c.outq = [])

/-- The model's reset state satisfies the invariant. R220's reset is `construct(image)`; `State.reset` is the block before
any construct, and its values are the model's choice: a core never constructed that holds the values R220 gives a core over
memory with nothing listed (log 3), empty channels (log 2), no other core, no network, no search, no reply and no command
(logs 8, 12, 16 and 17). -/
def Obligations.ResetSatisfiesTheInvariant : Prop := State.reset.Inv

/-- R25, R27, R28, R160, R166: every step keeps the invariant: every memory inside the address space, `cause` valid exactly
in `Faulted` cores, no core but the selected one running, and the orchestrator and the search in agreement with the cores.
These clauses rest on the model's own choices: the canonical form of memory (log 1), that a core never constructed is
`Ready` (log 3), that one core stays with `N = 0` (log 13), the host's cores that a search keeps aside (log 17), and the
form of `st` and of the sequencer's registers (logs 23 and 24). Of a faulted core's memory it says the model's own data
form only, no contents (R201). -/
def Obligations.StepKeepsTheInvariant : Prop :=
  ∀ s t : State, s.Inv → step s = .next t → t.Inv

/-- From a state that satisfies the invariant the block never stops with a fault of its own: a core's fault is taken into
its registers and the block goes on (R89, R190). The three stops that this excludes are the model's choice (log 20): a
faulted core without a cause is excluded by R28, a wait for a run that was not issued by R163 and R178, a trial without a
reply by R174. -/
def Obligations.InvariantExcludesMachineFaults : Prop :=
  ∀ (s : State) (f : Fault), s.Inv → step s ≠ .fault f

/-! ### Cores, network and search -/

/-- R34: a clone equals the core in its five pieces of state; the core itself and all others stay as they are. There is a
core to copy only once it was constructed: before that the command is refused (the model's choice, log 3). -/
def Obligations.CloneCopiesTheCore : Prop :=
  ∀ (s : State) (ks : List Cmd), s.AtRest → s.orch = none → s.cmds = .clone :: ks →
    (s.core.constructed = false → step s = .refused .neverConstructed) ∧
    (s.core.constructed = true →
      ∃ c, step s = .next { s with cmds := ks, after := s.after ++ [c] } ∧
        c.mem = s.core.mem ∧ c.ip = s.core.ip ∧ c.rb = s.core.rb ∧ c.status = s.core.status ∧ c.cause = s.core.cause ∧
        c.constructed = true)

/-- R161: a network is `N` cores, each right after construct of the program: memory is the image and 0 at every other
address, `ip` and `rb` 0, status `Ready`, an empty input; its orchestrator is in `Built` with the topology given, at
instance 0 and with no signal yet. That these are then all the cores of the block, and that with `N = 0` the one
constructed core stays, is the model's choice (log 13); so are the sequencer's registers before a drive (logs 23 and 24)
and that the reply of an earlier command is emptied (log 16). -/
def Obligations.NetworkConstructMakesEqualCores : Prop :=
  ∀ (s : State) (image : List Word) (topology : Topology) (n : Nat) (ks : List Cmd), s.AtRest →
    s.cmds = .constructNet image topology n :: ks →
    ∃ t, step s = .next t ∧ t.cores.length = max 1 n ∧
      (∀ c ∈ t.cores, c = VmCore.construct image ∧
        (∀ a : Nat, (a : Int) ≤ addrMax → c.mem.read a = image.getD a 0) ∧
        c.ip = 0 ∧ c.rb = 0 ∧ c.status = .ready ∧ c.cause = none ∧ c.inq = [] ∧ c.constructed = true) ∧
      t.before = [] ∧
      t.orch = some { topology := topology, n := n, signal := none, st := [], netstatus := .built, phases := [],
                      pass := 0, waiting := false } ∧
      t.search = s.search ∧ t.reply = none ∧ t.cmds = ks ∧ t.params = s.params

/-- R173: a `drive` with a wrong phase count, with `N < 1`, or on a network already driven returns `ConfigError` and runs
nothing. That `netstatus` and all the rest of the block then stay as they were (R163 raises before it writes anything), and
that the reply is held in State, is the model's reading (logs 14 and 16). -/
def Obligations.DriveRefusesBadConfigurations : Prop :=
  ∀ (s : State) (o : Orch) (phases : List Word) (ks : List Cmd), s.AtRest → s.orch = some o →
    s.cmds = .drive phases :: ks → (phases.length ≠ o.n ∨ o.n < 1 ∨ o.netstatus ≠ .built) →
    step s = .next { s with cmds := ks, reply := some (.fault .configError) }

/-- R163, R164: an accepted `drive` starts at the first pass with the signal `INITIAL_SIGNAL`, and with no exit status
recorded. That the reply of an earlier command is emptied is the model's choice (log 16). -/
def Obligations.DriveStartsWithTheInitialSignal : Prop :=
  ∀ (s : State) (o : Orch) (phases : List Word) (ks : List Cmd), s.AtRest → s.orch = some o →
    s.cmds = .drive phases :: ks → phases.length = o.n → 1 ≤ o.n → o.netstatus = .built →
    ∃ o', step s = .next { s with cmds := ks, orch := some o', reply := none } ∧ o'.netstatus = .driving ∧
      o'.signal = some s.params.initialSignal ∧ o'.phases = phases ∧ o'.pass = 0 ∧ o'.st = [] ∧ o'.waiting = false ∧
      o'.topology = o.topology ∧ o'.n = o.n

/-- R163, R169, R225: before a core's run the orchestrator appends to its input, in the first pass its phase and then the
signal, in later passes the signal only, hands it an empty output, and issues `run`. A core that terminated in an earlier
pass is run again (R168): under `noop` it stays as it was, with an empty output, and under `fault` it faults with
`RunAfterTerminated` (R93); a faulted one keeps its fault (R94). -/
def Obligations.RunIsSeededWithPhaseOnceThenSignal : Prop :=
  ∀ (s : State) (o : Orch) (v p : Word) (q : List Word), s.orch = some o → o.netstatus = .driving → o.waiting = false →
    o.signal = some v → o.phases[s.before.length]? = some p →
    q = s.core.inq ++ (if o.pass = 0 then [p, v] else [v]) →
    ((s.core.status = .ready ∨ s.core.status = .awaitingInput) →
      step s = .next { s with
        core := { s.core with inq := q, outq := [], status := .running }
        orch := some { o with waiting := true } }) ∧
    (s.core.status = .terminated → s.params.runOnTerminated = .noop →
      step s = .next { s with
        core := { s.core with inq := q, outq := [] }
        orch := some { o with waiting := true } }) ∧
    (s.core.status = .terminated → s.params.runOnTerminated = .fault →
      ∃ c, step s = .next { s with core := c, orch := some { o with waiting := true } } ∧ c.status = .faulted ∧
        c.cause = some .runAfterTerminated ∧ c.inq = q) ∧
    (s.core.status = .faulted →
      ∃ c, step s = .next { s with core := c, orch := some { o with waiting := true } } ∧ c.status = .faulted ∧
        c.cause = s.core.cause ∧ c.inq = q)

/-- R165: after a core's run the signal is the last value the run output; with no output it stays under
`NO_OUTPUT_POLICY = keep`, and the drive ends with `NoSignal(i)` under `fault`. No core changes, nor does the search, nor
the host's commands, nor a parameter. -/
def Obligations.NewSignalIsTheLastOutput : Prop :=
  ∀ (s : State) (o : Orch) (e : ExitStatus), s.Returned o e → o.signal.isSome →
    (∀ out v, s.core.outq = out ++ [v] →
      ∃ t o', step s = .next t ∧ t.orch = some o' ∧ o'.signal = some v ∧ t.cores = s.cores ∧ t.search = s.search ∧
        t.cmds = s.cmds ∧ t.params = s.params) ∧
    (s.core.outq = [] → s.params.noOutput = .keep →
      ∃ t o', step s = .next t ∧ t.orch = some o' ∧ o'.signal = o.signal ∧ t.cores = s.cores ∧ t.search = s.search ∧
        t.cmds = s.cmds ∧ t.params = s.params) ∧
    (s.core.outq = [] → s.params.noOutput = .fault →
      ∃ o', step s = .next { s with orch := some o', reply := some (.fault (.noSignal s.before.length)) } ∧
        o'.netstatus = .faulted)

/-- R166: while a network is driven, the selection moves only when the selected core's run has returned, and then to the
core of the next index, or from the last core back to core 0. And it does move, whatever the topology, when a core that is
not the last of its pass has returned: the drive goes on, its exit status is recorded and the next core is selected, to be
seeded with the new signal (R163, R168: a drive does not end in the middle of a pass). -/
def Obligations.CoresRunInSerialOrder : Prop :=
  ∀ (s : State) (o : Orch), s.orch = some o → o.netstatus = .driving →
    (∀ t, step s = .next t → t.before.length ≠ s.before.length →
      o.waiting = true ∧ (s.core.status = .terminated ∨ s.core.status = .awaitingInput) ∧ t.cores = s.cores ∧
        (t.before.length = s.before.length + 1 ∨ s.after = [] ∧ t.before = [])) ∧
    (∀ e v c cs, s.Returned o e → s.after = c :: cs → nextSignal s.params.noOutput o.signal s.core.outq = some v →
      step s = .next { s with
        before := s.before ++ [s.core], core := c, after := cs
        orch := some { o with st := o.st ++ [e], signal := some v, waiting := false } })

/-- R167, R171: a `Linear` drive ends after one pass with the signal as it stands after the last core, whatever exit
status was reported and whether the signal is that core's last output or, under `keep`, passed through. Nothing else in
the block changes. -/
def Obligations.LinearDriveEndsAfterOnePass : Prop :=
  ∀ (s : State) (o : Orch) (e : ExitStatus) (v : Word), s.Returned o e → o.topology = .linear → s.after = [] →
    nextSignal s.params.noOutput o.signal s.core.outq = some v →
    ∃ o', step s = .next { s with orch := some o', reply := some (.signal v) } ∧ o'.netstatus = .done

/-- R168: a `Loop` drive ends after a complete pass in which every run returned `Terminated`, with the signal after the
last core, and not before: the return of a core that is not the last of its pass records its exit status and goes on to
the next core, and after any other complete pass the next one begins at core 0 with no exit status recorded. Nothing else
in the block changes. That the statuses stay recorded after the drive has ended is the model's choice (log 14). -/
def Obligations.LoopDriveEndsWhenAllTerminated : Prop :=
  ∀ (s : State) (o : Orch) (e : ExitStatus) (v : Word), s.Returned o e → o.topology = .loop →
    nextSignal s.params.noOutput o.signal s.core.outq = some v →
    (∀ c cs, s.after = c :: cs →
      step s = .next { s with
        before := s.before ++ [s.core], core := c, after := cs
        orch := some { o with st := o.st ++ [e], signal := some v, waiting := false } }) ∧
    (s.after = [] → (e = .terminated ∧ ∀ x ∈ o.st, x = .terminated) →
      ∃ o', step s = .next { s with orch := some o', reply := some (.signal v) } ∧ o'.netstatus = .done ∧
        o'.st = o.st ++ [e]) ∧
    (s.after = [] → ¬ (e = .terminated ∧ ∀ x ∈ o.st, x = .terminated) →
      ∃ c cs, s.cores = c :: cs ∧
        step s = .next { s with
          before := [], core := c, after := cs
          orch := some { o with st := [], signal := some v, pass := o.pass + 1, waiting := false } })

/-- R170: when a core's run faults, the drive stops with `CoreFault(i, code, info)`, no core changes, and `netstatus` is
`Faulted`. -/
def Obligations.CoreFaultEndsTheDrive : Prop :=
  ∀ (s : State) (o : Orch) (f : Cause), s.orch = some o → o.netstatus = .driving → o.waiting = true →
    s.core.status = .faulted → s.core.cause = some f →
    ∃ o', step s = .next { s with orch := some o', reply := some (.fault (.coreFault s.before.length f)) } ∧
      o'.netstatus = .faulted

/-- R174: the search tries every permutation of the value set. It starts with a list of exactly the permutations, `N!` of
them; each trial takes the first one off the list and drives with it; no step of a drive changes the search; and taking a
trial's signal leaves the rest of the list. (How it ends, with the list used up or at a fault, is
`SearchKeepsTheLargestSignal`.) That the list is held in State, that the host's own cores are kept aside in the search, and
that a value set with a repeated value is refused is the model's choice (log 17), and so is the emptied reply (log 16). -/
def Obligations.SearchTriesEveryPermutation : Prop :=
  (∀ (s : State) (image : List Word) (topology : Topology) (phaseSet : List Word) (ks : List Cmd), s.AtRest →
    s.cmds = .search image topology phaseSet :: ks →
    (phaseSet.Nodup →
      ∃ todo, step s = .next { s with
          cmds := ks
          search := some { image := image, topology := topology, todo := todo, best := none, trial := false,
                           homeBefore := s.before, homeCore := s.core, homeAfter := s.after, homeOrch := s.orch }
          reply := none } ∧
        (∀ p, p ∈ todo ↔ p.Perm phaseSet) ∧ todo.length = phaseSet.length.factorial) ∧
    (¬ phaseSet.Nodup → step s = .refused .notAPhaseSet)) ∧
  (∀ (s : State) (q : Search), s.core.status ≠ .running → (∀ o, s.orch = some o → o.netstatus ≠ .driving) →
    s.search = some q →
    (∀ p ps, q.trial = false → q.todo = p :: ps → p ≠ [] →
      ∃ t o, step s = .next t ∧ t.search = some { q with todo := ps, trial := true } ∧ t.orch = some o ∧
        o.netstatus = .driving ∧ o.phases = p) ∧
    (∀ w, q.trial = true → s.reply = some (.signal w) →
      ∃ q', step s = .next { s with search := some q' } ∧ q'.todo = q.todo ∧ q'.trial = false)) ∧
  (∀ s t : State, (s.core.status = .running ∨ ∃ o, s.orch = some o ∧ o.netstatus = .driving) → step s = .next t →
    t.search = s.search ∧ t.cmds = s.cmds)

/-- R163, R164, R174, R176: each trial is a drive with the next permutation on fresh cores of its own, whatever the block
held, from instance 0 of the first pass. The empty permutation's trial returns `ConfigError` (R173: `N < 1`). That a
trial's cores are then all the cores of the block, and that an earlier reply is emptied, is the model's choice (logs 13,
16 and 17). -/
def Obligations.TrialsStartOnFreshCores : Prop :=
  ∀ (s : State) (q : Search) (p : List Word) (ps : List (List Word)), s.core.status ≠ .running →
    (∀ o, s.orch = some o → o.netstatus ≠ .driving) → s.search = some q → q.trial = false → q.todo = p :: ps →
    (p ≠ [] →
      ∃ t, step s = .next t ∧ t.cores = List.replicate p.length (VmCore.construct q.image) ∧ t.before = [] ∧
        t.orch = some { topology := q.topology, n := p.length, signal := some s.params.initialSignal, st := [],
                        netstatus := .driving, phases := p, pass := 0, waiting := false } ∧
        t.search = some { q with todo := ps, trial := true } ∧ t.reply = none ∧ t.cmds = s.cmds ∧
        t.params = s.params) ∧
    (p = [] →
      ∃ t, step s = .next t ∧ t.reply = some (.fault .configError) ∧ (∀ o, t.orch = some o → o.netstatus ≠ .driving) ∧
        t.search = some { q with todo := ps, trial := true } ∧ t.cmds = s.cmds ∧ t.params = s.params)

/-- R174, R175: a trial's signal becomes the best when there is none or it is larger, signed; a trial's fault ends the
search with that fault and no maximum; with no permutation left the search returns the best. That the host's own cores and
network, kept aside, are then in the block again is the model's choice (log 17), as is the reply held in State (log 16). -/
def Obligations.SearchKeepsTheLargestSignal : Prop :=
  ∀ (s : State) (q : Search), s.core.status ≠ .running → (∀ o, s.orch = some o → o.netstatus ≠ .driving) →
    s.search = some q →
    (∀ w, q.trial = true → s.reply = some (.signal w) →
      ∃ b, step s = .next { s with search := some { q with best := some b, trial := false } } ∧ w.toInt ≤ b.toInt ∧
        (∀ b', q.best = some b' → b'.toInt ≤ b.toInt) ∧ (b = w ∨ q.best = some b)) ∧
    (∀ f, q.trial = true → s.reply = some (.fault f) →
      step s = .next { s with
        before := q.homeBefore, core := q.homeCore, after := q.homeAfter, orch := q.homeOrch, search := none
        reply := some (.fault f) }) ∧
    (∀ w, q.trial = false → q.todo = [] → q.best = some w →
      step s = .next { s with
        before := q.homeBefore, core := q.homeCore, after := q.homeAfter, orch := q.homeOrch, search := none
        reply := some (.signal w) })
end

