-- ==== Sys2Proof/Laws/State.lean ====
section
/-! SUPPORT. One lemma per field per update of a core and of the block. -/

namespace Sys2Proof.Machine

@[simp] theorem VmCore.writeMem_mem (c : VmCore) (a : Nat) (v : Word) : (c.writeMem a v).mem = c.mem.write a v := rfl
@[simp] theorem VmCore.writeMem_ip (c : VmCore) (a : Nat) (v : Word) : (c.writeMem a v).ip = c.ip := rfl
@[simp] theorem VmCore.writeMem_rb (c : VmCore) (a : Nat) (v : Word) : (c.writeMem a v).rb = c.rb := rfl
@[simp] theorem VmCore.writeMem_status (c : VmCore) (a : Nat) (v : Word) : (c.writeMem a v).status = c.status := rfl
@[simp] theorem VmCore.writeMem_cause (c : VmCore) (a : Nat) (v : Word) : (c.writeMem a v).cause = c.cause := rfl
@[simp] theorem VmCore.writeMem_inq (c : VmCore) (a : Nat) (v : Word) : (c.writeMem a v).inq = c.inq := rfl
@[simp] theorem VmCore.writeMem_outq (c : VmCore) (a : Nat) (v : Word) : (c.writeMem a v).outq = c.outq := rfl
@[simp] theorem VmCore.writeMem_constructed (c : VmCore) (a : Nat) (v : Word) : (c.writeMem a v).constructed = c.constructed := rfl

@[simp] theorem VmCore.setIp_mem (c : VmCore) (v : Word) : (c.setIp v).mem = c.mem := rfl
@[simp] theorem VmCore.setIp_ip (c : VmCore) (v : Word) : (c.setIp v).ip = v := rfl
@[simp] theorem VmCore.setIp_rb (c : VmCore) (v : Word) : (c.setIp v).rb = c.rb := rfl
@[simp] theorem VmCore.setIp_status (c : VmCore) (v : Word) : (c.setIp v).status = c.status := rfl
@[simp] theorem VmCore.setIp_cause (c : VmCore) (v : Word) : (c.setIp v).cause = c.cause := rfl
@[simp] theorem VmCore.setIp_inq (c : VmCore) (v : Word) : (c.setIp v).inq = c.inq := rfl
@[simp] theorem VmCore.setIp_outq (c : VmCore) (v : Word) : (c.setIp v).outq = c.outq := rfl
@[simp] theorem VmCore.setIp_constructed (c : VmCore) (v : Word) : (c.setIp v).constructed = c.constructed := rfl

@[simp] theorem VmCore.setRb_mem (c : VmCore) (v : Word) : (c.setRb v).mem = c.mem := rfl
@[simp] theorem VmCore.setRb_ip (c : VmCore) (v : Word) : (c.setRb v).ip = c.ip := rfl
@[simp] theorem VmCore.setRb_rb (c : VmCore) (v : Word) : (c.setRb v).rb = v := rfl
@[simp] theorem VmCore.setRb_status (c : VmCore) (v : Word) : (c.setRb v).status = c.status := rfl
@[simp] theorem VmCore.setRb_cause (c : VmCore) (v : Word) : (c.setRb v).cause = c.cause := rfl
@[simp] theorem VmCore.setRb_inq (c : VmCore) (v : Word) : (c.setRb v).inq = c.inq := rfl
@[simp] theorem VmCore.setRb_outq (c : VmCore) (v : Word) : (c.setRb v).outq = c.outq := rfl
@[simp] theorem VmCore.setRb_constructed (c : VmCore) (v : Word) : (c.setRb v).constructed = c.constructed := rfl

@[simp] theorem VmCore.setStatus_mem (c : VmCore) (v : Status) : (c.setStatus v).mem = c.mem := rfl
@[simp] theorem VmCore.setStatus_ip (c : VmCore) (v : Status) : (c.setStatus v).ip = c.ip := rfl
@[simp] theorem VmCore.setStatus_rb (c : VmCore) (v : Status) : (c.setStatus v).rb = c.rb := rfl
@[simp] theorem VmCore.setStatus_status (c : VmCore) (v : Status) : (c.setStatus v).status = v := rfl
@[simp] theorem VmCore.setStatus_cause (c : VmCore) (v : Status) : (c.setStatus v).cause = c.cause := rfl
@[simp] theorem VmCore.setStatus_inq (c : VmCore) (v : Status) : (c.setStatus v).inq = c.inq := rfl
@[simp] theorem VmCore.setStatus_outq (c : VmCore) (v : Status) : (c.setStatus v).outq = c.outq := rfl
@[simp] theorem VmCore.setStatus_constructed (c : VmCore) (v : Status) : (c.setStatus v).constructed = c.constructed := rfl

@[simp] theorem VmCore.setInq_mem (c : VmCore) (q : List Word) : (c.setInq q).mem = c.mem := rfl
@[simp] theorem VmCore.setInq_ip (c : VmCore) (q : List Word) : (c.setInq q).ip = c.ip := rfl
@[simp] theorem VmCore.setInq_rb (c : VmCore) (q : List Word) : (c.setInq q).rb = c.rb := rfl
@[simp] theorem VmCore.setInq_status (c : VmCore) (q : List Word) : (c.setInq q).status = c.status := rfl
@[simp] theorem VmCore.setInq_cause (c : VmCore) (q : List Word) : (c.setInq q).cause = c.cause := rfl
@[simp] theorem VmCore.setInq_inq (c : VmCore) (q : List Word) : (c.setInq q).inq = q := rfl
@[simp] theorem VmCore.setInq_outq (c : VmCore) (q : List Word) : (c.setInq q).outq = c.outq := rfl
@[simp] theorem VmCore.setInq_constructed (c : VmCore) (q : List Word) : (c.setInq q).constructed = c.constructed := rfl

@[simp] theorem VmCore.pushOut_mem (c : VmCore) (v : Word) : (c.pushOut v).mem = c.mem := rfl
@[simp] theorem VmCore.pushOut_ip (c : VmCore) (v : Word) : (c.pushOut v).ip = c.ip := rfl
@[simp] theorem VmCore.pushOut_rb (c : VmCore) (v : Word) : (c.pushOut v).rb = c.rb := rfl
@[simp] theorem VmCore.pushOut_status (c : VmCore) (v : Word) : (c.pushOut v).status = c.status := rfl
@[simp] theorem VmCore.pushOut_cause (c : VmCore) (v : Word) : (c.pushOut v).cause = c.cause := rfl
@[simp] theorem VmCore.pushOut_inq (c : VmCore) (v : Word) : (c.pushOut v).inq = c.inq := rfl
@[simp] theorem VmCore.pushOut_outq (c : VmCore) (v : Word) : (c.pushOut v).outq = c.outq ++ [v] := rfl
@[simp] theorem VmCore.pushOut_constructed (c : VmCore) (v : Word) : (c.pushOut v).constructed = c.constructed := rfl

@[simp] theorem VmCore.takeFault_mem (c : VmCore) (f : Cause) : (c.takeFault f).mem = c.mem := rfl
@[simp] theorem VmCore.takeFault_ip (c : VmCore) (f : Cause) : (c.takeFault f).ip = c.ip := rfl
@[simp] theorem VmCore.takeFault_rb (c : VmCore) (f : Cause) : (c.takeFault f).rb = c.rb := rfl
@[simp] theorem VmCore.takeFault_status (c : VmCore) (f : Cause) : (c.takeFault f).status = .faulted := rfl
@[simp] theorem VmCore.takeFault_cause (c : VmCore) (f : Cause) : (c.takeFault f).cause = some f := rfl
@[simp] theorem VmCore.takeFault_inq (c : VmCore) (f : Cause) : (c.takeFault f).inq = c.inq := rfl
@[simp] theorem VmCore.takeFault_outq (c : VmCore) (f : Cause) : (c.takeFault f).outq = c.outq := rfl
@[simp] theorem VmCore.takeFault_constructed (c : VmCore) (f : Cause) : (c.takeFault f).constructed = c.constructed := rfl

@[simp] theorem VmCore.reconstruct_mem (c : VmCore) (image : List Word) : (c.reconstruct image).mem = Memory.ofImageFrom 0 image := rfl
@[simp] theorem VmCore.reconstruct_ip (c : VmCore) (image : List Word) : (c.reconstruct image).ip = 0 := rfl
@[simp] theorem VmCore.reconstruct_rb (c : VmCore) (image : List Word) : (c.reconstruct image).rb = 0 := rfl
@[simp] theorem VmCore.reconstruct_status (c : VmCore) (image : List Word) : (c.reconstruct image).status = .ready := rfl
@[simp] theorem VmCore.reconstruct_cause (c : VmCore) (image : List Word) : (c.reconstruct image).cause = none := rfl
@[simp] theorem VmCore.reconstruct_inq (c : VmCore) (image : List Word) : (c.reconstruct image).inq = c.inq := rfl
@[simp] theorem VmCore.reconstruct_outq (c : VmCore) (image : List Word) : (c.reconstruct image).outq = c.outq := rfl
@[simp] theorem VmCore.reconstruct_constructed (c : VmCore) (image : List Word) : (c.reconstruct image).constructed = true := rfl

@[simp] theorem VmCore.clone_mem (c : VmCore) : (c.clone).mem = c.mem := rfl
@[simp] theorem VmCore.clone_ip (c : VmCore) : (c.clone).ip = c.ip := rfl
@[simp] theorem VmCore.clone_rb (c : VmCore) : (c.clone).rb = c.rb := rfl
@[simp] theorem VmCore.clone_status (c : VmCore) : (c.clone).status = c.status := rfl
@[simp] theorem VmCore.clone_cause (c : VmCore) : (c.clone).cause = c.cause := rfl
@[simp] theorem VmCore.clone_inq (c : VmCore) : (c.clone).inq = [] := rfl
@[simp] theorem VmCore.clone_outq (c : VmCore) : (c.clone).outq = [] := rfl
@[simp] theorem VmCore.clone_constructed (c : VmCore) : (c.clone).constructed = c.constructed := rfl

@[simp] theorem VmCore.construct_mem (image : List Word) : (VmCore.construct image).mem = Memory.ofImageFrom 0 image := rfl
@[simp] theorem VmCore.construct_ip (image : List Word) : (VmCore.construct image).ip = 0 := rfl
@[simp] theorem VmCore.construct_rb (image : List Word) : (VmCore.construct image).rb = 0 := rfl
@[simp] theorem VmCore.construct_status (image : List Word) : (VmCore.construct image).status = .ready := rfl
@[simp] theorem VmCore.construct_cause (image : List Word) : (VmCore.construct image).cause = none := rfl
@[simp] theorem VmCore.construct_inq (image : List Word) : (VmCore.construct image).inq = [] := rfl
@[simp] theorem VmCore.construct_outq (image : List Word) : (VmCore.construct image).outq = [] := rfl
@[simp] theorem VmCore.construct_constructed (image : List Word) : (VmCore.construct image).constructed = true := rfl

@[simp] theorem State.withCore_params (s : State) (c : VmCore) : (s.withCore c).params = s.params := rfl
@[simp] theorem State.withCore_before (s : State) (c : VmCore) : (s.withCore c).before = s.before := rfl
@[simp] theorem State.withCore_core (s : State) (c : VmCore) : (s.withCore c).core = c := rfl
@[simp] theorem State.withCore_after (s : State) (c : VmCore) : (s.withCore c).after = s.after := rfl
@[simp] theorem State.withCore_orch (s : State) (c : VmCore) : (s.withCore c).orch = s.orch := rfl
@[simp] theorem State.withCore_search (s : State) (c : VmCore) : (s.withCore c).search = s.search := rfl
@[simp] theorem State.withCore_reply (s : State) (c : VmCore) : (s.withCore c).reply = s.reply := rfl
@[simp] theorem State.withCore_cmds (s : State) (c : VmCore) : (s.withCore c).cmds = s.cmds := rfl

@[simp] theorem State.feed_params (s : State) (xs : List Word) : (s.feed xs).params = s.params := rfl
@[simp] theorem State.feed_before (s : State) (xs : List Word) : (s.feed xs).before = s.before := rfl
@[simp] theorem State.feed_core (s : State) (xs : List Word) : (s.feed xs).core = s.core.setInq (s.core.inq ++ xs) := rfl
@[simp] theorem State.feed_after (s : State) (xs : List Word) : (s.feed xs).after = s.after := rfl
@[simp] theorem State.feed_orch (s : State) (xs : List Word) : (s.feed xs).orch = s.orch := rfl
@[simp] theorem State.feed_search (s : State) (xs : List Word) : (s.feed xs).search = s.search := rfl
@[simp] theorem State.feed_reply (s : State) (xs : List Word) : (s.feed xs).reply = s.reply := rfl
@[simp] theorem State.feed_cmds (s : State) (xs : List Word) : (s.feed xs).cmds = s.cmds := rfl

@[simp] theorem State.resume_params (s : State) : (s.resume).params = s.params := rfl
@[simp] theorem State.resume_before (s : State) : (s.resume).before = s.before := rfl
@[simp] theorem State.resume_core (s : State) : (s.resume).core = s.core.startRun s.params.runOnTerminated := rfl
@[simp] theorem State.resume_after (s : State) : (s.resume).after = s.after := rfl
@[simp] theorem State.resume_orch (s : State) : (s.resume).orch = s.orch := rfl
@[simp] theorem State.resume_search (s : State) : (s.resume).search = s.search := rfl
@[simp] theorem State.resume_reply (s : State) : (s.resume).reply = s.reply := rfl
@[simp] theorem State.resume_cmds (s : State) : (s.resume).cmds = s.cmds := rfl

@[simp] theorem State.withCore_self (s : State) : s.withCore s.core = s := rfl
@[simp] theorem State.withCore_withCore (s : State) (c d : VmCore) : (s.withCore c).withCore d = s.withCore d := rfl
@[simp] theorem State.commit_ok (s : State) (c : VmCore) : s.commit (.ok c) = .next (s.withCore c) := rfl
@[simp] theorem State.commit_error (s : State) (f : Cause) :
    s.commit (.error f) = .next (s.withCore (s.core.takeFault f)) := rfl

/-- What a committed step can be: the core the instruction left, or the fault taken. -/
theorem State.commit_eq_next {s t : State} {r : Except Cause VmCore} (h : s.commit r = .next t) :
    (∃ c, r = .ok c ∧ t = s.withCore c) ∨ (∃ f, r = .error f ∧ t = s.withCore (s.core.takeFault f)) := by
  cases r with
  | ok c => exact .inl ⟨c, rfl, by simpa using h.symm⟩
  | error f => exact .inr ⟨f, rfl, by simpa using h.symm⟩

end Sys2Proof.Machine
end

