-- ==== Sys2Proof/Laws/Memory.lean ====
section
/-! SUPPORT. The laws of memory: read after write, the canonical form, and memory loaded from an image. -/

namespace Sys2Proof.Machine

@[simp] theorem Memory.read_nil (b : Nat) : Memory.read [] b = 0 := rfl

@[simp] theorem Memory.read_cons (k : Nat) (w : Word) (m : Memory) (b : Nat) :
    Memory.read ((k, w) :: m) b = if k = b then w else m.read b := rfl

theorem Memory.read_clear (m : Memory) (a b : Nat) : (m.clear a).read b = if b = a then 0 else m.read b := by
  induction m with
  | nil => simp [Memory.clear]
  | cons e m ih =>
    obtain ⟨k, w⟩ := e
    simp only [Memory.clear] at ih ⊢
    by_cases hk : k = a
    · rw [List.filter_cons_of_neg (by simpa using hk), ih]
      by_cases hb : b = a
      · simp [hb]
      · simp [hb, show k ≠ b by omega]
    · rw [List.filter_cons_of_pos (by simpa using hk)]
      by_cases hb : k = b
      · simp [hb, show b ≠ a by omega]
      · simp [hb, ih]

theorem Memory.read_insert (m : Memory) (a : Nat) (v : Word) (b : Nat) :
    (m.insert a v).read b = if b = a then v else m.read b := by
  induction m with
  | nil => by_cases h : b = a <;> simp [Memory.insert, h, Ne.symm]
  | cons e m ih =>
    obtain ⟨k, w⟩ := e
    simp only [Memory.insert]
    by_cases hb : b = a
    · subst hb
      split
      · simp
      · split
        · simp
        · rename_i h
          simp [ih, Ne.symm h]
    · have ha : a ≠ b := Ne.symm hb
      split
      · simp [ha]
      · split
        · rename_i h
          subst h
          simp [ha]
        · simp [ih, hb]

/-- Reading any address after a write: the written value there, the old value elsewhere (R51). -/
@[simp] theorem Memory.read_write (m : Memory) (a : Nat) (v : Word) (b : Nat) :
    (m.write a v).read b = if b = a then v else m.read b := by
  unfold Memory.write
  split
  · simp_all [Memory.read_clear]
  · exact Memory.read_insert m a v b

theorem Memory.mem_insert {m : Memory} {a : Nat} {v : Word} {e : Nat × Word} (h : e ∈ m.insert a v) :
    e = (a, v) ∨ e ∈ m := by
  induction m with
  | nil => simpa [Memory.insert] using h
  | cons x m ih =>
    obtain ⟨k, w⟩ := x
    simp only [Memory.insert] at h
    split at h
    · simpa using h
    · split at h
      · rcases List.mem_cons.mp h with h | h
        · exact .inl h
        · exact .inr (List.mem_cons_of_mem _ h)
      · rcases List.mem_cons.mp h with h | h
        · exact .inr (h ▸ List.mem_cons_self)
        · exact (ih h).imp_right (List.mem_cons_of_mem _)

theorem Memory.insert_sorted {m : Memory} (hm : m.Pairwise (fun x y => x.1 < y.1)) (a : Nat) (v : Word) :
    (m.insert a v).Pairwise (fun x y => x.1 < y.1) := by
  induction m with
  | nil => simp [Memory.insert]
  | cons x m ih =>
    obtain ⟨k, w⟩ := x
    have hk := (List.pairwise_cons.mp hm).1
    have ht := (List.pairwise_cons.mp hm).2
    simp only [Memory.insert]
    split
    · rename_i h
      refine List.pairwise_cons.mpr ⟨?_, hm⟩
      intro e he
      rcases List.mem_cons.mp he with rfl | he
      · exact h
      · exact h.trans (hk e he)
    · split
      · rename_i h
        subst h
        exact List.pairwise_cons.mpr ⟨hk, ht⟩
      · rename_i h1 h2
        refine List.pairwise_cons.mpr ⟨?_, ih ht⟩
        intro e he
        rcases Memory.mem_insert he with rfl | he
        · show k < a
          omega
        · exact hk e he

/-- A write inside the address space keeps the canonical form. -/
theorem Memory.write_wf {m : Memory} (hm : m.wf) {a : Nat} (ha : (a : Int) ≤ addrMax) (v : Word) : (m.write a v).wf := by
  obtain ⟨h1, h2, h3⟩ := hm
  unfold Memory.write
  split
  · exact ⟨h1.filter _, fun e he => h2 e (List.mem_of_mem_filter he), fun e he => h3 e (List.mem_of_mem_filter he)⟩
  · rename_i hv
    refine ⟨Memory.insert_sorted h1 a v, ?_, ?_⟩ <;> intro e he <;> rcases Memory.mem_insert he with rfl | he
    · exact hv
    · exact h2 e he
    · exact ha
    · exact h3 e he

theorem Memory.ofImageFrom_ge {a : Nat} {ws : List Word} {e : Nat × Word} (h : e ∈ Memory.ofImageFrom a ws) :
    a ≤ e.1 := by
  induction ws generalizing a with
  | nil => simp [Memory.ofImageFrom] at h
  | cons w ws ih =>
    simp only [Memory.ofImageFrom] at h
    split at h
    · exact Nat.le_of_succ_le (ih h)
    · rcases List.mem_cons.mp h with rfl | h
      · exact Nat.le_refl _
      · exact Nat.le_of_succ_le (ih h)

/-- Memory loaded from an image is in canonical form (R41). -/
theorem Memory.ofImageFrom_wf (a : Nat) (ws : List Word) : (Memory.ofImageFrom a ws).wf := by
  induction ws generalizing a with
  | nil => simp [Memory.ofImageFrom, Memory.wf]
  | cons w ws ih =>
    simp only [Memory.ofImageFrom]
    split
    · exact ih (a + 1)
    · rename_i h
      rw [not_or] at h
      obtain ⟨h1, h2, h3⟩ := ih (a + 1)
      refine ⟨List.pairwise_cons.mpr ⟨fun e he => Memory.ofImageFrom_ge he, h1⟩, ?_, ?_⟩ <;>
        intro e he <;> rcases List.mem_cons.mp he with rfl | he
      · exact h.1
      · exact h2 e he
      · exact not_lt.mp h.2
      · exact h3 e he

theorem Memory.ofImageFrom_read_below {a b : Nat} (h : b < a) (ws : List Word) :
    (Memory.ofImageFrom a ws).read b = 0 := by
  induction ws generalizing a with
  | nil => rfl
  | cons w ws ih =>
    simp only [Memory.ofImageFrom]
    split
    · exact ih (by omega)
    · simp [show ¬ a = b by omega, ih (show b < a + 1 by omega)]

/-- Memory loaded from an image reads as the image, and 0 past its end (R41, R42). -/
theorem Memory.ofImageFrom_read (a : Nat) (ws : List Word) (b : Nat)
    (hb : (b : Int) ≤ addrMax) (hab : a ≤ b) :
    (Memory.ofImageFrom a ws).read b = ws.getD (b - a) 0 := by
  induction ws generalizing a with
  | nil => simp [Memory.ofImageFrom]
  | cons w ws ih =>
    simp only [Memory.ofImageFrom]
    by_cases he : a = b
    · subst he
      split
      · rename_i h
        rcases h with h | h
        · rw [Memory.ofImageFrom_read_below (by omega)]; simp [h]
        · omega
      · simp
    · have hr := ih (a + 1) (by omega)
      have hs : b - a = (b - (a + 1)) + 1 := by omega
      split
      · rw [hr, hs]; simp
      · simp [he, hr]; rw [hs]; simp

end Sys2Proof.Machine
end

