-- ==== Sys2Proof/Laws/Ops.lean ====
section
/-! SUPPORT. One lemma per shared operation: what it answers, and when. -/

namespace Sys2Proof.Machine

/-- A computation that goes on has gone on at every stage. -/
theorem except_bind_eq_ok {α β : Type} {x : Except Cause α} {f : α → Except Cause β} {b : β} :
    (x >>= f) = .ok b ↔ ∃ a, x = .ok a ∧ f a = .ok b := by
  cases x with
  | error e => exact ⟨fun h => (nomatch h), fun ⟨_, h, _⟩ => (nomatch h)⟩
  | ok a => exact ⟨fun h => ⟨a, rfl, h⟩, fun ⟨_, h, hf⟩ => (Except.ok.inj h) ▸ hf⟩

@[simp] theorem except_ok_bind {α β : Type} (a : α) (f : α → Except Cause β) :
    ((Except.ok a : Except Cause α) >>= f) = f a := rfl

@[simp] theorem except_error_bind {α β : Type} (e : Cause) (f : α → Except Cause β) :
    ((Except.error e : Except Cause α) >>= f) = .error e := rfl

@[simp] theorem except_pure {α : Type} (a : α) : (pure a : Except Cause α) = .ok a := rfl

/-- A WORD is inside the range of R10. -/
theorem word_fits (w : Word) : Fits64 w.toInt := by
  have h1 := BitVec.le_toInt w
  have h2 := BitVec.toInt_lt (x := w)
  simp only [Nat.add_one_sub_one] at h1 h2
  exact ⟨h1, by show w.toInt ≤ 9223372036854775807; omega⟩

/-- The WORD of a value in the range has that value (R13). -/
theorem wordOf_toInt {v : Int} (h : Fits64 v) : (wordOf v).toInt = v := by
  obtain ⟨h1, h2⟩ := h
  simp only [wordMin, wordMax] at h1 h2
  unfold wordOf
  rw [BitVec.toInt_ofInt, Int.bmod_def]
  split <;> omega

theorem word_toInt_nonneg {w : Word} (h : 0 ≤ w.toInt) : w.toInt = w.toNat := by
  rw [BitVec.toInt_eq_toNat_cond] at h ⊢
  split at h <;> rename_i h2
  · simp [h2]
  · have := w.isLt
    omega

/-- `CheckAddr` passes exactly the valid addresses (R15). -/
theorem checkAddr_eq_ok {lim : Option Nat} {a : Int} {k : Nat} :
    checkAddr lim a = .ok k ↔ ValidAddr lim a ∧ a = k := by
  unfold checkAddr ValidAddr
  split
  · simp; omega
  · split
    · simp; omega
    · cases lim with
      | none => simp; omega
      | some n =>
        simp only
        split
        · simp; omega
        · simp; omega

theorem checkAddr_of_valid {lim : Option Nat} {a : Int} (h : ValidAddr lim a) : checkAddr lim a = .ok a.toNat :=
  checkAddr_eq_ok.mpr ⟨h, by have := h.1; omega⟩

theorem checkAddr_negative {lim : Option Nat} {a : Int} (h : a < 0) : checkAddr lim a = .error (.negativeAddress a) := by
  simp [checkAddr, h]

theorem checkAddr_capacity {lim : Option Nat} {a : Int} (h0 : 0 ≤ a) (h : ¬ ValidAddr lim a) :
    checkAddr lim a = .error (.outOfCapacity a) := by
  unfold checkAddr
  rw [if_neg (by omega)]
  split
  · rfl
  · cases lim with
    | none => exact absurd ⟨h0, by omega, by simp⟩ h
    | some n =>
      simp only
      split
      · rfl
      · exact absurd ⟨h0, by omega, by simp; omega⟩ h

/-- An address that passes `CheckAddr` is inside the address space. -/
theorem checkAddr_le {lim : Option Nat} {a : Int} {k : Nat} (h : checkAddr lim a = .ok k) : (k : Int) ≤ addrMax := by
  obtain ⟨⟨_, h2, _⟩, rfl⟩ := checkAddr_eq_ok.mp h
  exact h2

theorem VmCore.advance_of_le {c : VmCore} {op : Opcode} (h : c.ip.toInt + op.len ≤ addrMax) :
    c.advance op = .ok (wordOf (c.ip.toInt + op.len)) := by
  simp [VmCore.advance, not_lt.mpr h]

theorem VmCore.advance_of_gt {c : VmCore} {op : Opcode} (h : addrMax < c.ip.toInt + op.len) :
    c.advance op = .error (.outOfCapacity (c.ip.toInt + op.len)) := by
  simp [VmCore.advance, h]

theorem exactResult_of_fits {op : Opcode} {x y : Word} {v : Int} (h : Fits64 v) :
    exactResult op x y v = .ok (wordOf v) := if_pos h

theorem exactResult_of_not_fits {op : Opcode} {x y : Word} {v : Int} (h : ¬ Fits64 v) :
    exactResult op x y v = .error (.overflow op x y) := if_neg h

/-- `run`'s entry never leaves a core `Ready` (R89). -/
theorem VmCore.startRun_status_ne_ready (p : RunOnTerminated) (c : VmCore) : (c.startRun p).status ≠ .ready := by
  unfold VmCore.startRun
  cases p <;> cases h : c.status <;> simp [h]

@[simp] theorem VmCore.startRun_mem (p : RunOnTerminated) (c : VmCore) : (c.startRun p).mem = c.mem := by
  unfold VmCore.startRun
  cases p <;> cases c.status <;> rfl

@[simp] theorem VmCore.startRun_constructed (p : RunOnTerminated) (c : VmCore) :
    (c.startRun p).constructed = c.constructed := by
  unfold VmCore.startRun
  cases p <;> cases c.status <;> rfl

/-- `run`'s entry keeps a constructed core sound (R224 refuses it on any other). -/
theorem VmCore.Sound.startRun {c : VmCore} (h : c.Sound) (hm : c.constructed = true) (p : RunOnTerminated) :
    (c.startRun p).Sound := by
  refine ⟨by simpa using h.1, ?_, by simp [hm]⟩
  have h2 := h.2.1
  unfold VmCore.startRun
  cases p <;> cases hs : c.status <;> simp_all

/-- A sound core that is not `Ready` was constructed. -/
theorem VmCore.Sound.constructed_of_ne_ready {c : VmCore} (h : c.Sound) (hn : c.status ≠ .ready) :
    c.constructed = true := by
  by_contra hc
  exact hn (h.2.2 (by simpa using hc))

/-- A core right after construct is sound and stands by (R220). -/
theorem VmCore.construct_parked (image : List Word) : (VmCore.construct image).Parked :=
  ⟨⟨Memory.ofImageFrom_wf 0 image, by simp, by simp⟩, by simp⟩

theorem VmCore.Parked.clone {c : VmCore} (h : c.Parked) : c.clone.Parked := h

end Sys2Proof.Machine
end

