-- ==== Sys2Proof/Laws/Decode.lean ====
section
/-! SUPPORT. The decoder and the encoder: what each check answers, and the round trip of an instruction word. -/

namespace Sys2Proof

open Sys2Proof.Machine

/-- A word of known digits decodes to the head of those digits, if its write target is not Immediate: every head whose
canonical word `Enc` writes is read back, unused digits included (R74). -/
theorem decodeWord_encodeHead (h : Head) (ht : ∀ p, h.op.writePosition = some p → h.mode p ≠ .immediate) :
    decodeWord (encodeHead h) = .ok h := by
  obtain ⟨op, m0, m1, m2⟩ := h
  cases op <;> cases m0 <;> cases m1 <;> cases m2 <;>
    first
      | rfl
      | exact absurd rfl (ht 2 rfl)
      | exact absurd rfl (ht 0 rfl)

/-- The head of a well-formed instruction has no Immediate write target. -/
theorem Instr.wf_target {i : Instr} (h : i.wf = true) (p : Nat) (hp : i.head.op.writePosition = some p) :
    i.head.mode p ≠ .immediate := by
  cases i <;> simp [Instr.head, Opcode.writePosition] at hp <;> subst hp <;>
    simpa [Instr.head, Head.mode, Instr.wf, Operand.isTarget] using h

/-- The operand count of an instruction is its opcode's arity (R64). -/
theorem Instr.operandWords_length (i : Instr) : i.operandWords.length = i.head.op.arity := by cases i <;> rfl

/-- An instruction is rebuilt from its head and its operand words. -/
theorem Instr.build_head (i : Instr) (rest : List Word) :
    i.head.build ((i.operandWords ++ rest).getD 0 0) ((i.operandWords ++ rest).getD 1 0)
      ((i.operandWords ++ rest).getD 2 0) = i := by
  cases i <;> rfl

/-- What a mode digit decodes to. -/
theorem decodeMode_of_digit {w : Word} {i : Nat} {m : Mode} (h : modeOf (digit w.toNat (i + 2)) = some m) :
    decodeMode w i = .ok m := by simp [decodeMode, h]

theorem decodeMode_of_no_mode {w : Word} {i : Nat} (h : modeOf (digit w.toNat (i + 2)) = none) :
    decodeMode w i = .error (.illegalMode w i) := by simp [decodeMode, h]

/-- A digit is a mode digit when it is at most 2 (R63). -/
theorem modeOf_isSome {d : Nat} : (∃ m, modeOf d = some m) ↔ d ≤ 2 := by
  constructor
  · rintro ⟨m, h⟩
    match d, h with
    | 0, _ => omega
    | 1, _ => omega
    | 2, _ => omega
  · intro h
    match d, h with
    | 0, _ => exact ⟨_, rfl⟩
    | 1, _ => exact ⟨_, rfl⟩
    | 2, _ => exact ⟨_, rfl⟩

theorem modeOf_eq_none {d : Nat} : modeOf d = none ↔ 3 ≤ d := by
  have h := @modeOf_isSome d
  cases hm : modeOf d with
  | none => simp [hm] at h; simp; omega
  | some m => simp [hm] at h; simp; omega

/-- A decoded word: not negative, its opcode and mode digits known, no digit above them, no Immediate write target
(R67 to R72). -/
theorem decodeWord_eq_ok {w : Word} {h : Head} (hw : decodeWord w = .ok h) :
    ¬ w.toInt < 0 ∧ opcodeOf (w.toNat % 100) = some h.op ∧
      modeOf (digit w.toNat 2) = some h.m0 ∧ modeOf (digit w.toNat 3) = some h.m1 ∧
      modeOf (digit w.toNat 4) = some h.m2 ∧ w.toNat / 100000 = 0 ∧
      ∀ p, h.op.writePosition = some p → h.mode p ≠ .immediate := by
  unfold decodeWord at hw
  split at hw
  · exact absurd hw (by simp)
  · rename_i h0
    split at hw
    · exact absurd hw (by simp)
    · rename_i op hop
      obtain ⟨m0, h1, hw⟩ := except_bind_eq_ok.mp hw
      obtain ⟨m1, h2, hw⟩ := except_bind_eq_ok.mp hw
      obtain ⟨m2, h3, hw⟩ := except_bind_eq_ok.mp hw
      split at hw
      · exact absurd hw (by simp)
      · rename_i h4
        have hm : ∀ {i : Nat} {m : Mode}, decodeMode w i = .ok m → modeOf (digit w.toNat (i + 2)) = some m := by
          intro i m hd
          unfold decodeMode at hd
          split at hd <;> simp_all
        unfold checkWriteMode at hw
        split at hw
        · rename_i hp
          have := Except.ok.inj hw
          subst this
          exact ⟨h0, hop, hm h1, hm h2, hm h3, not_not.mp h4, fun p hp' => by simp_all⟩
        · rename_i p hp
          split at hw
          · exact absurd hw (by simp)
          · rename_i hi
            have := Except.ok.inj hw
            subst this
            exact ⟨h0, hop, hm h1, hm h2, hm h3, not_not.mp h4, fun p' hp' => by simp_all⟩

/-- What the decoder accepts builds a well-formed instruction, whatever the operand words (R72). -/
theorem Head.build_wf {w : Word} {h : Head} (hw : decodeWord w = .ok h) (x0 x1 x2 : Word) :
    (h.build x0 x1 x2).wf = true := by
  have ht := (decodeWord_eq_ok hw).2.2.2.2.2.2
  obtain ⟨op, m0, m1, m2⟩ := h
  cases op <;> simp [Head.build, Instr.wf, Operand.isTarget, Opcode.writePosition, Head.mode] at ht ⊢ <;> exact ht

end Sys2Proof
end

