-- ==== Sys2Proof/Laws/Exec.lean ====
section
/-! SUPPORT. What the shared steps can do, once: each instruction's next core when every stage goes on, and what a step
that went on must have been. -/

namespace Sys2Proof.Machine

/-- A step that commits a fault reports it. -/
theorem Reports.of_error (s : State) (f : Cause) : Reports (s.commit (.error f)) s f := ⟨_, rfl, rfl, rfl, rfl⟩

/-- A write target at `k` passes both its checks. -/
theorem VmCore.TargetAt.checks {lim : Option Nat} {c : VmCore} {d : Operand} {k : Nat} (h : c.TargetAt lim d k)
    (hd : Head) (p : Nat) : targetAddress c.rb hd p d = .ok (k : Int) ∧ checkAddr lim (k : Int) = .ok k := by
  refine ⟨?_, checkAddr_eq_ok.mpr ⟨h.2, rfl⟩⟩
  rw [targetAddress, h.1]

theorem targetAddress_eq_ok {rb : Word} {h : Head} {p : Nat} {d : Operand} {ea : Int} :
    targetAddress rb h p d = .ok ea ↔ effectiveAddress rb d = some ea := by
  unfold targetAddress
  cases effectiveAddress rb d <;> simp

/-- The F3rrw step, when the operands and the target are good: the opcode's result, then `Advance`. -/
theorem VmCore.storeBinary_of_operands {lim : Option Nat} {c : VmCore} {op : Opcode} {a b d : Operand} {x y : Word}
    {k : Nat} (ha : c.readOperand lim a = .ok x) (hb : c.readOperand lim b = .ok y) (hd : c.TargetAt lim d k)
    (f : Word → Word → Except Cause Word) :
    c.storeBinary lim op a b d f =
      (f x y >>= fun r => c.advance op >>= fun n => .ok ((c.writeMem k r).setIp n)) := by
  simp [VmCore.storeBinary, (hd.checks _ _).1, (hd.checks ⟨.add, .position, .position, .position⟩ 0).2, ha, hb]

/-- The F3rrw step that goes on has written one result word at its target and advanced, and nothing else. -/
theorem VmCore.storeBinary_eq_ok {lim : Option Nat} {c c' : VmCore} {op : Opcode} {a b d : Operand}
    {f : Word → Word → Except Cause Word} (h : c.storeBinary lim op a b d f = .ok c') :
    ∃ (x y : Word) (k : Nat) (r n : Word), c.readOperand lim a = .ok x ∧ c.readOperand lim b = .ok y ∧
      effectiveAddress c.rb d = some (k : Int) ∧ checkAddr lim (k : Int) = .ok k ∧ f x y = .ok r ∧
      c.advance op = .ok n ∧ c' = (c.writeMem k r).setIp n := by
  unfold VmCore.storeBinary at h
  obtain ⟨ea, h1, h⟩ := except_bind_eq_ok.mp h
  obtain ⟨x, h2, h⟩ := except_bind_eq_ok.mp h
  obtain ⟨y, h3, h⟩ := except_bind_eq_ok.mp h
  obtain ⟨k, h4, h⟩ := except_bind_eq_ok.mp h
  obtain ⟨r, h5, h⟩ := except_bind_eq_ok.mp h
  obtain ⟨n, h6, h⟩ := except_bind_eq_ok.mp h
  have hea := (checkAddr_eq_ok.mp h4).2
  rw [hea] at h1 h4
  exact ⟨x, y, k, r, n, h2, h3, targetAddress_eq_ok.mp h1, h4, h5, h6, (Except.ok.inj h).symm⟩

/-- The F2rr step that goes on has changed `ip` only. -/
theorem VmCore.branch_eq_ok {lim : Option Nat} {c c' : VmCore} {op : Opcode} {a b : Operand} {g : Word → Bool}
    (h : c.branch lim op a b g = .ok c') :
    ∃ x y, c.readOperand lim a = .ok x ∧ c.readOperand lim b = .ok y ∧
      ((g x = true ∧ c' = c.setIp y) ∨ (g x = false ∧ ∃ n, c.advance op = .ok n ∧ c' = c.setIp n)) := by
  unfold VmCore.branch at h
  obtain ⟨x, h1, h⟩ := except_bind_eq_ok.mp h
  obtain ⟨y, h2, h⟩ := except_bind_eq_ok.mp h
  refine ⟨x, y, h1, h2, ?_⟩
  cases hg : g x with
  | true => exact .inl ⟨rfl, by simpa [hg, eq_comm] using h⟩
  | false =>
    simp only [hg, Bool.false_eq_true, if_false] at h
    obtain ⟨n, h3, h⟩ := except_bind_eq_ok.mp h
    exact .inr ⟨rfl, n, h3, (Except.ok.inj h).symm⟩

/-- The IN step that does not fault: it suspends with no input, or stores the head of the input and advances. -/
theorem VmCore.input_eq_ok {lim : Option Nat} {c c' : VmCore} {d : Operand} (h : c.input lim d = .ok c') :
    ∃ (k : Nat) (n : Word), effectiveAddress c.rb d = some (k : Int) ∧ checkAddr lim (k : Int) = .ok k ∧ c.advance .inp = .ok n ∧
      ((c.inq = [] ∧ c' = c.setStatus .awaitingInput) ∨
        ∃ v q, c.inq = v :: q ∧ c' = ((c.setInq q).writeMem k v).setIp n) := by
  unfold VmCore.input at h
  obtain ⟨ea, h1, h⟩ := except_bind_eq_ok.mp h
  obtain ⟨k, h2, h⟩ := except_bind_eq_ok.mp h
  obtain ⟨n, h3, h⟩ := except_bind_eq_ok.mp h
  have hea := (checkAddr_eq_ok.mp h2).2
  rw [hea] at h1 h2
  refine ⟨k, n, targetAddress_eq_ok.mp h1, h2, h3, ?_⟩
  cases hq : c.inq with
  | nil => exact .inl ⟨rfl, by simpa [hq, eq_comm] using h⟩
  | cons v q => exact .inr ⟨v, q, rfl, by simpa [hq, eq_comm] using h⟩

/-- The OUT step that goes on has appended one value and advanced. -/
theorem VmCore.output_eq_ok {lim : Option Nat} {c c' : VmCore} {a : Operand} (h : c.output lim a = .ok c') :
    ∃ x n, c.readOperand lim a = .ok x ∧ c.advance .out = .ok n ∧ c' = (c.pushOut x).setIp n := by
  unfold VmCore.output at h
  obtain ⟨x, h1, h⟩ := except_bind_eq_ok.mp h
  obtain ⟨n, h2, h⟩ := except_bind_eq_ok.mp h
  exact ⟨x, n, h1, h2, (Except.ok.inj h).symm⟩

/-- The ARB step that goes on has changed `rb` and advanced. -/
theorem VmCore.adjustBase_eq_ok {lim : Option Nat} {c c' : VmCore} {a : Operand} (h : c.adjustBase lim a = .ok c') :
    ∃ x r n, c.readOperand lim a = .ok x ∧ exactResult .arb c.rb x (c.rb.toInt + x.toInt) = .ok r ∧
      c.advance .arb = .ok n ∧ c' = (c.setRb r).setIp n := by
  unfold VmCore.adjustBase at h
  obtain ⟨x, h1, h⟩ := except_bind_eq_ok.mp h
  obtain ⟨r, h2, h⟩ := except_bind_eq_ok.mp h
  obtain ⟨n, h3, h⟩ := except_bind_eq_ok.mp h
  exact ⟨x, r, n, h1, h2, h3, (Except.ok.inj h).symm⟩

/-- An instruction's own step on a core: what `exec` commits. -/
def coreExec (i : Instr) (lim : Option Nat) (c : VmCore) : Except Cause VmCore :=
  match i with
  | .add a b d => c.storeBinary lim .add a b d fun x y => exactResult .add x y (x.toInt + y.toInt)
  | .mul a b d => c.storeBinary lim .mul a b d fun x y => exactResult .mul x y (x.toInt * y.toInt)
  | .inp d => c.input lim d
  | .out a => c.output lim a
  | .jt a b => c.branch lim .jt a b fun x => x != 0
  | .jf a b => c.branch lim .jf a b fun x => x == 0
  | .lt a b d => c.storeBinary lim .lt a b d fun x y => .ok (truthWord (decide (x.toInt < y.toInt)))
  | .eq a b d => c.storeBinary lim .eq a b d fun x y => .ok (truthWord (decide (x = y)))
  | .arb a => c.adjustBase lim a
  | .halt => .ok (c.setStatus .terminated)

/-- Every instruction is its own step on the selected core, committed: it reads and writes no other core (R35, R162). -/
theorem exec_eq_commit (i : Instr) (s : State) : exec i s = s.commit (coreExec i s.params.memLimit s.core) := by
  cases i <;> rfl

/-- What one instruction that goes on can have done to its core, in one list (R88, R97). -/
theorem coreExec_eq_ok {i : Instr} {lim : Option Nat} {c c' : VmCore} (h : coreExec i lim c = .ok c') :
    (∃ (k : Nat) (r n : Word), checkAddr lim (k : Int) = .ok k ∧ c' = (c.writeMem k r).setIp n) ∨
    (∃ (d : Operand) (k : Nat) (v : Word) (q : List Word) (n : Word), i = .inp d ∧ effectiveAddress c.rb d = some (k : Int) ∧ checkAddr lim (k : Int) = .ok k ∧
      c.inq = v :: q ∧ c' = ((c.setInq q).writeMem k v).setIp n) ∨
    (∃ d, i = .inp d ∧ c.inq = [] ∧ c' = c.setStatus .awaitingInput) ∨
    (∃ a x n, i = .out a ∧ c.readOperand lim a = .ok x ∧ c' = (c.pushOut x).setIp n) ∨
    (∃ n, c' = c.setIp n) ∨
    (∃ a r n, i = .arb a ∧ c' = (c.setRb r).setIp n) ∨
    (i = .halt ∧ c' = c.setStatus .terminated) := by
  cases i with
  | add a b d =>
    obtain ⟨x, y, k, r, n, _, _, _, hk, _, _, rfl⟩ := VmCore.storeBinary_eq_ok h
    exact .inl ⟨k, r, n, hk, rfl⟩
  | mul a b d =>
    obtain ⟨x, y, k, r, n, _, _, _, hk, _, _, rfl⟩ := VmCore.storeBinary_eq_ok h
    exact .inl ⟨k, r, n, hk, rfl⟩
  | inp d =>
    obtain ⟨k, n, hd, hk, _, ⟨hq, rfl⟩ | ⟨v, q, hq, rfl⟩⟩ := VmCore.input_eq_ok h
    · exact .inr (.inr (.inl ⟨d, rfl, hq, rfl⟩))
    · exact .inr (.inl ⟨d, k, v, q, n, rfl, hd, hk, hq, rfl⟩)
  | out a =>
    obtain ⟨x, n, ha, _, rfl⟩ := VmCore.output_eq_ok h
    exact .inr (.inr (.inr (.inl ⟨a, x, n, rfl, ha, rfl⟩)))
  | jt a b =>
    obtain ⟨x, y, _, _, ⟨_, rfl⟩ | ⟨_, n, _, rfl⟩⟩ := VmCore.branch_eq_ok h <;>
      exact .inr (.inr (.inr (.inr (.inl ⟨_, rfl⟩))))
  | jf a b =>
    obtain ⟨x, y, _, _, ⟨_, rfl⟩ | ⟨_, n, _, rfl⟩⟩ := VmCore.branch_eq_ok h <;>
      exact .inr (.inr (.inr (.inr (.inl ⟨_, rfl⟩))))
  | lt a b d =>
    obtain ⟨x, y, k, r, n, _, _, _, hk, _, _, rfl⟩ := VmCore.storeBinary_eq_ok h
    exact .inl ⟨k, r, n, hk, rfl⟩
  | eq a b d =>
    obtain ⟨x, y, k, r, n, _, _, _, hk, _, _, rfl⟩ := VmCore.storeBinary_eq_ok h
    exact .inl ⟨k, r, n, hk, rfl⟩
  | arb a =>
    obtain ⟨x, r, n, _, _, _, rfl⟩ := VmCore.adjustBase_eq_ok h
    exact .inr (.inr (.inr (.inr (.inr (.inl ⟨a, r, n, rfl, rfl⟩)))))
  | halt => exact .inr (.inr (.inr (.inr (.inr (.inr ⟨rfl, (Except.ok.inj h).symm⟩)))))

/-- An instruction that does not fault keeps its core's memory in canonical form and touches neither `cause` nor the
model's `constructed` bit. -/
theorem coreExec_keeps {i : Instr} {lim : Option Nat} {c c' : VmCore} (h : coreExec i lim c = .ok c') :
    (c.mem.wf → c'.mem.wf) ∧ c'.cause = c.cause ∧ c'.constructed = c.constructed := by
  rcases coreExec_eq_ok h with ⟨k, r, n, hk, rfl⟩ | ⟨d, k, v, q, n, rfl, _, hk, _, rfl⟩ | ⟨d, rfl, _, rfl⟩ |
    ⟨a, x, n, rfl, _, rfl⟩ | ⟨n, rfl⟩ | ⟨a, r, n, rfl, rfl⟩ | ⟨rfl, rfl⟩
  · exact ⟨fun hm => by simpa using Memory.write_wf hm (checkAddr_le hk) r, rfl, rfl⟩
  · exact ⟨fun hm => by simpa using Memory.write_wf hm (checkAddr_le hk) v, rfl, rfl⟩
  all_goals exact ⟨fun hm => hm, rfl, rfl⟩

/-- The status an instruction that does not fault leaves (R92). -/
theorem coreExec_status {i : Instr} {lim : Option Nat} {c c' : VmCore} (h : coreExec i lim c = .ok c') :
    c'.status = c.status ∨ (c'.status = .awaitingInput ∧ (∃ d, i = .inp d) ∧ c.inq = []) ∨
      (c'.status = .terminated ∧ i = .halt) := by
  rcases coreExec_eq_ok h with ⟨k, r, n, hk, rfl⟩ | ⟨d, k, v, q, n, rfl, _, hk, _, rfl⟩ | ⟨d, rfl, hq, rfl⟩ |
    ⟨a, x, n, rfl, _, rfl⟩ | ⟨n, rfl⟩ | ⟨a, r, n, rfl, rfl⟩ | ⟨rfl, rfl⟩
  · exact .inl rfl
  · exact .inl rfl
  · exact .inr (.inl ⟨rfl, ⟨d, rfl⟩, hq⟩)
  · exact .inl rfl
  · exact .inl rfl
  · exact .inl rfl
  · exact .inr (.inr ⟨rfl, rfl⟩)

end Sys2Proof.Machine
end

