-- ==== Sys2Proof/Laws/Fetch.lean ====
section
/-! SUPPORT. Fetch and one step of a running core. -/

namespace Sys2Proof.Machine

open Sys2Proof

/-- A fetch at a valid address reads the word there (R80, R82). -/
theorem VmCore.fetchWord_of_valid {lim : Option Nat} {c : VmCore} {k : Nat} (h : ValidAddr lim (c.ip.toInt + k)) :
    c.fetchWord lim k = .ok (c.mem.read (c.ip.toInt + k).toNat) := by
  simp [VmCore.fetchWord, checkAddr_of_valid h]

/-- The fetch of the instruction word at a valid `ip` (R80). -/
theorem VmCore.fetchWord_zero {lim : Option Nat} {c : VmCore} (h : ValidAddr lim c.ip.toInt) :
    c.fetchWord lim 0 = .ok (c.mem.read c.ip.toNat) := by
  have hnn : c.ip.toInt = c.ip.toNat := word_toInt_nonneg h.1
  rw [VmCore.fetchWord_of_valid (by simpa using h), hnn]
  congr 2

/-- After an instruction of `l` words has stored `w` at word `j` of the one that follows it, the fetch of that word reads
`w` (R51, R54). -/
theorem VmCore.fetchWord_of_stored {lim : Option Nat} {c : VmCore} {l j : Nat} (w : Word) (h0 : 0 ≤ c.ip.toInt)
    (hv : ValidAddr lim ((c.ip.toInt + l + j).toNat : Nat)) (hi : c.ip.toInt + l ≤ addrMax) :
    ((c.writeMem (c.ip.toInt + l + j).toNat w).setIp (wordOf (c.ip.toInt + l))).fetchWord lim j = .ok w := by
  have hm : wordMin ≤ 0 := by decide
  have hw : (wordOf (c.ip.toInt + l)).toInt = c.ip.toInt + l := wordOf_toInt ⟨by omega, hi⟩
  rw [Int.toNat_of_nonneg (by omega)] at hv
  rw [VmCore.fetchWord_of_valid (by simpa [hw] using hv)]
  simp [hw]

/-- The fetch stages when the head's words are known. -/
theorem VmCore.fetch_of_head {lim : Option Nat} {c : VmCore} {w : Word} {h : Head} (hw : c.fetchWord lim 0 = .ok w)
    (hd : decodeWord w = .ok h) :
    c.fetch lim = (c.operandWord lim h.op 0 >>= fun x0 => c.operandWord lim h.op 1 >>= fun x1 =>
      c.operandWord lim h.op 2 >>= fun x2 => .ok (h.build x0 x1 x2)) := by
  simp [VmCore.fetch, hw, hd]

/-- A fetched instruction comes from the word at `ip`. -/
theorem VmCore.fetch_eq_ok {lim : Option Nat} {c : VmCore} {i : Instr} (h : c.fetch lim = .ok i) :
    ∃ w hd x0 x1 x2, c.fetchWord lim 0 = .ok w ∧ decodeWord w = .ok hd ∧ i = hd.build x0 x1 x2 := by
  unfold VmCore.fetch at h
  obtain ⟨w, h1, h⟩ := except_bind_eq_ok.mp h
  obtain ⟨hd, h2, h⟩ := except_bind_eq_ok.mp h
  obtain ⟨x0, _, h⟩ := except_bind_eq_ok.mp h
  obtain ⟨x1, _, h⟩ := except_bind_eq_ok.mp h
  obtain ⟨x2, _, h⟩ := except_bind_eq_ok.mp h
  exact ⟨w, hd, x0, x1, x2, h1, h2, (Except.ok.inj h).symm⟩

/-- A built instruction has its head's opcode. -/
@[simp] theorem build_head_op (h : Head) (x0 x1 x2 : Word) : (h.build x0 x1 x2).head.op = h.op := by
  obtain ⟨op, m0, m1, m2⟩ := h
  cases op <;> rfl

theorem step_of_running {s : State} (h : s.core.status = .running) : step s = s.coreStep := if_pos h

theorem step_of_idle {s : State} (h : s.core.status ≠ .running) : step s = s.idleStep := if_neg h

/-- A running core's step is the commit of one computation on that core alone: its fetch, then the instruction. -/
theorem coreStep_eq_commit (s : State) :
    s.coreStep = s.commit (s.core.fetch s.params.memLimit >>= fun i => coreExec i s.params.memLimit s.core) := by
  unfold State.coreStep
  cases s.core.fetch s.params.memLimit with
  | error f => rfl
  | ok i => exact exec_eq_commit i s

/-- One step of a running core: the instruction at `ip` went on or stopped, or a fault was taken. -/
theorem step_running_eq_next {s t : State} (hr : s.core.status = .running) (h : step s = .next t) :
    (∃ i c, s.core.fetch s.params.memLimit = .ok i ∧ coreExec i s.params.memLimit s.core = .ok c ∧ t = s.withCore c) ∨
    (∃ f, t = s.withCore (s.core.takeFault f)) := by
  rw [step_of_running hr, coreStep_eq_commit] at h
  rcases State.commit_eq_next h with ⟨c, hc, rfl⟩ | ⟨f, _, rfl⟩
  · obtain ⟨i, hi, hc⟩ := except_bind_eq_ok.mp hc
    exact .inl ⟨i, c, hi, hc, rfl⟩
  · exact .inr ⟨f, rfl⟩

/-- A running core always has a next state: no instruction is refused and none stops the block. -/
theorem step_running_next {s : State} (hr : s.core.status = .running) : ∃ c, step s = .next (s.withCore c) := by
  rw [step_of_running hr, coreStep_eq_commit]
  cases s.core.fetch s.params.memLimit >>= fun i => coreExec i s.params.memLimit s.core with
  | ok c => exact ⟨c, rfl⟩
  | error f => exact ⟨_, rfl⟩

end Sys2Proof.Machine
end

