-- ==== Sys2Proof/Laws/Step.lean ====
section
/-! SUPPORT. What one step is in each situation of the block, what an instruction does when more input stands behind, and
the steps of a run joined. -/

namespace Sys2Proof.Machine

open Sys2Proof

/-- An instruction that answers a next state without a fault has gone on: what its own step leaves (see `coreExec_eq_ok`). -/
theorem exec_eq_next {i : Instr} {s t : State} (h : exec i s = .next t) (hf : t.core.status ≠ .faulted) :
    ∃ c, coreExec i s.params.memLimit s.core = .ok c ∧ t = s.withCore c := by
  rw [exec_eq_commit] at h
  rcases State.commit_eq_next h with h | ⟨f, _, rfl⟩
  · exact h
  · simp at hf

/-- An instruction that does not suspend does the same whatever stands behind the input there is. -/
theorem coreExec_feed {i : Instr} {lim : Option Nat} {c : VmCore} (xs : List Word) :
    (∃ f, coreExec i lim c = .error f ∧ coreExec i lim (c.setInq (c.inq ++ xs)) = .error f) ∨
    (∃ c', coreExec i lim c = .ok c' ∧ (c'.status = .awaitingInput ∨
      coreExec i lim (c.setInq (c.inq ++ xs)) = .ok (c'.setInq (c'.inq ++ xs)))) := by
  have hro : ∀ o, (c.setInq (c.inq ++ xs)).readOperand lim o = c.readOperand lim o := fun _ => rfl
  have had : ∀ op, (c.setInq (c.inq ++ xs)).advance op = c.advance op := fun _ => rfl
  have hsb : ∀ op a b d f, (c.setInq (c.inq ++ xs)).storeBinary lim op a b d f =
      (c.storeBinary lim op a b d f).map (fun c' => c'.setInq (c'.inq ++ xs)) := by
    intro op a b d f
    unfold VmCore.storeBinary
    simp only [hro, had, VmCore.setInq_rb]
    cases targetAddress c.rb ⟨op, a.mode, b.mode, d.mode⟩ 2 d <;> try rfl
    cases c.readOperand lim a <;> try rfl
    cases c.readOperand lim b <;> try rfl
    simp only [except_ok_bind]
    rename_i ea x y
    cases checkAddr lim ea <;> try rfl
    simp only [except_ok_bind]
    cases f x y <;> try rfl
    simp only [except_ok_bind]
    cases c.advance op <;> rfl
  have hbr : ∀ op a b g, (c.setInq (c.inq ++ xs)).branch lim op a b g =
      (c.branch lim op a b g).map (fun c' => c'.setInq (c'.inq ++ xs)) := by
    intro op a b g
    unfold VmCore.branch
    simp only [hro, had]
    cases c.readOperand lim a <;> try rfl
    cases c.readOperand lim b <;> try rfl
    simp only [except_ok_bind]
    split
    · rfl
    · cases c.advance op <;> rfl
  have key : ∀ r : Except Cause VmCore, coreExec i lim c = r →
      coreExec i lim (c.setInq (c.inq ++ xs)) = r.map (fun c' => c'.setInq (c'.inq ++ xs)) →
      (∃ f, coreExec i lim c = .error f ∧ coreExec i lim (c.setInq (c.inq ++ xs)) = .error f) ∨
      (∃ c', coreExec i lim c = .ok c' ∧ (c'.status = .awaitingInput ∨
        coreExec i lim (c.setInq (c.inq ++ xs)) = .ok (c'.setInq (c'.inq ++ xs)))) := by
    intro r h1 h2
    cases r with
    | error f => exact .inl ⟨f, h1, h2⟩
    | ok c' => exact .inr ⟨c', h1, .inr h2⟩
  cases i with
  | add a b d => exact key _ rfl (hsb ..)
  | mul a b d => exact key _ rfl (hsb ..)
  | lt a b d => exact key _ rfl (hsb ..)
  | eq a b d => exact key _ rfl (hsb ..)
  | jt a b => exact key _ rfl (hbr ..)
  | jf a b => exact key _ rfl (hbr ..)
  | halt => exact key _ rfl rfl
  | out a =>
    refine key _ rfl ?_
    simp only [coreExec, VmCore.output, hro, had]
    cases c.readOperand lim a <;> try rfl
    simp only [except_ok_bind]
    cases c.advance .out <;> rfl
  | arb a =>
    refine key _ rfl ?_
    simp only [coreExec, VmCore.adjustBase, hro, had, VmCore.setInq_rb]
    cases c.readOperand lim a <;> try rfl
    simp only [except_ok_bind]
    rename_i x
    cases exactResult .arb c.rb x (c.rb.toInt + x.toInt) <;> try rfl
    simp only [except_ok_bind]
    cases c.advance .arb <;> rfl
  | inp d =>
    simp only [coreExec, VmCore.input, had, VmCore.setInq_rb]
    cases targetAddress c.rb ⟨.inp, d.mode, .position, .position⟩ 0 d <;> try exact .inl ⟨_, rfl, rfl⟩
    simp only [except_ok_bind]
    rename_i ea
    cases checkAddr lim ea <;> try exact .inl ⟨_, rfl, rfl⟩
    simp only [except_ok_bind]
    cases c.advance .inp <;> try exact .inl ⟨_, rfl, rfl⟩
    simp only [except_ok_bind]
    cases hq : c.inq with
    | nil => exact .inr ⟨_, rfl, .inl rfl⟩
    | cons v q => exact .inr ⟨_, rfl, .inr rfl⟩

/-- The steps of a run, joined. -/
theorem CoreSteps.trans {n k : Nat} {s t u : State} (h : CoreSteps n s t) (h2 : CoreSteps k t u) : CoreSteps (n + k) s u := by
  induction h with
  | refl s => simpa using h2
  | next hr hs _ ih => rw [Nat.add_right_comm]; exact .next hr hs (ih h2)

/-- At rest, a step is the host's next command. -/
theorem step_of_rest {s : State} (h : s.AtRest) : step s = s.hostStep := by
  obtain ⟨h1, h2, h3⟩ := h
  rw [step_of_idle h1, State.idleStep]
  cases ho : s.orch with
  | none => simp [State.searchOrHost, h2]
  | some o => simp [h3 o ho, State.searchOrHost, h2]

/-- At rest with a command waiting, a step is that command, taken off the list. -/
theorem step_of_command {s : State} {k : Cmd} {ks : List Cmd} (h : s.AtRest) (hk : s.cmds = k :: ks) :
    step s = { s with cmds := ks }.command k := by
  rw [step_of_rest h, State.hostStep, hk]

/-- The host reaches a core as a constructed one only when there is no network and it is one. -/
theorem State.onConstructed_eq_next {s t : State} {f : State → StepResult} (h : s.onConstructed f = .next t) :
    s.orch = none ∧ s.core.constructed = true ∧ f s = .next t := by
  unfold State.onConstructed State.onOwnCore at h
  split at h
  · simp at h
  · beta_reduce at h
    split at h
    · exact ⟨‹_›, ‹_›, h⟩
    · simp at h

/-- The host's command on a constructed core of its own. -/
theorem State.onConstructed_of_constructed {s : State} (ho : s.orch = none) (hm : s.core.constructed = true)
    (f : State → StepResult) : s.onConstructed f = f s := by
  simp [State.onConstructed, State.onOwnCore, ho, hm]

/-- The host's command on a core of its own that it has not constructed (R224). -/
theorem State.onConstructed_of_not_constructed {s : State} (ho : s.orch = none) (hm : s.core.constructed = false)
    (f : State → StepResult) : s.onConstructed f = .refused .neverConstructed := by
  simp [State.onConstructed, State.onOwnCore, ho, hm]

/-- While a network is driven and no core runs, a step is the orchestrator's. -/
theorem step_of_driving {s : State} {o : Orch} (h1 : s.core.status ≠ .running) (ho : s.orch = some o) (hd : o.netstatus = .driving) :
    step s = s.orchStep o := by
  rw [step_of_idle h1, State.idleStep, ho]
  simp [hd]

/-- While a search is in progress and nothing is driven, a step is the search's. -/
theorem step_of_search {s : State} {q : Search} (h1 : s.core.status ≠ .running)
    (h3 : ∀ o, s.orch = some o → o.netstatus ≠ .driving) (hq : s.search = some q) : step s = s.searchStep q := by
  rw [step_of_idle h1, State.idleStep]
  cases ho : s.orch with
  | none => simp [State.searchOrHost, hq]
  | some o => simp [h3 o ho, State.searchOrHost, hq]

/-- The orchestrator takes the return of the run it waits for. -/
theorem State.Returned.step_eq {s : State} {o : Orch} {e : ExitStatus} (h : s.Returned o e) :
    Sys2Proof.Machine.step s = .next (s.afterRun o e) := by
  obtain ⟨ho, hd, hw, he⟩ := h
  unfold VmCore.exitStatus at he
  have : (s.core.status = .terminated ∧ e = .terminated) ∨ (s.core.status = .awaitingInput ∧ e = .awaitingInput) := by
    cases hs : s.core.status <;> simp [hs] at he <;> simp [he]
  rcases this with ⟨h, rfl⟩ | ⟨h, rfl⟩ <;>
    rw [step_of_driving (by simp [h]) ho hd, State.orchStep, hw] <;> simp [State.takeReturn, h]

/-- A block is alike to itself. -/
theorem State.Alike.refl (s : State) : s.Alike s := ⟨s.core, rfl, rfl, rfl, rfl, fun _ => rfl⟩

/-- A longest instruction fits where `withFetchWord` stores. -/
theorem VmCore.fetchBase_le (lim : Option Nat) (c : VmCore) : ((c.fetchBase lim).toNat : Int) + 4 ≤ addrMax := by
  unfold VmCore.fetchBase
  split
  · rename_i h1 h2
    have h0 := (checkAddr_eq_ok.mp h1).1.1
    have h4 := (checkAddr_eq_ok.mp h2).1.2.1
    have := word_toInt_nonneg h0
    omega
  · decide

/-- `withFetchWord` keeps the canonical form. -/
theorem State.withFetchWord_wf {s : State} (h : s.core.mem.wf) (nbits w : Nat) : (s.withFetchWord nbits w).core.mem.wf := by
  have hb := VmCore.fetchBase_le s.params.memLimit s.core
  simp only [State.withFetchWord, VmCore.withWords, tableWords, List.foldl, State.withCore_core]
  refine Memory.write_wf (Memory.write_wf (Memory.write_wf (Memory.write_wf h ?_ _) ?_ _) ?_ _) ?_ _ <;> push_cast <;> omega

end Sys2Proof.Machine
end

