-- ==== Sys2Proof/Laws/Network.lean ====
section
/-! SUPPORT. The orchestrator and the search: where the selection goes, what happens to the signal, and the permutations. -/

namespace Sys2Proof.Machine

open Sys2Proof

/-- Going on keeps the signal. -/
theorem State.moveOn_signal (s : State) (o : Orch) : ∃ o', (s.moveOn o).orch = some o' ∧ o'.signal = o.signal := by
  unfold State.moveOn
  split
  · exact ⟨_, rfl, rfl⟩
  · split <;> exact ⟨_, rfl, rfl⟩

/-- Going back to core 0 keeps every core. -/
theorem State.rewind_cores (s : State) (h : s.after = []) : s.rewind.cores = s.cores ∧ s.rewind.before = [] := by
  unfold State.rewind State.cores
  cases hb : s.before with
  | nil => simp [hb]
  | cons c cs => simp [h]

/-- Going on keeps every core, and selects the next one or core 0. -/
theorem State.moveOn_cores (s : State) (o : Orch) : (s.moveOn o).cores = s.cores ∧
    ((s.moveOn o).before = s.before ∨ (s.moveOn o).before.length = s.before.length + 1 ∨ s.after = [] ∧ (s.moveOn o).before = []) := by
  unfold State.moveOn
  split
  · rename_i c cs h
    exact ⟨by simp [State.cores, h], .inr (.inl (by simp))⟩
  · rename_i h
    split
    · exact ⟨by simp [State.cores], .inl rfl⟩
    · obtain ⟨h1, h2⟩ := State.rewind_cores s h
      exact ⟨h1, .inr (.inr ⟨h, h2⟩)⟩

/-- Going back to core 0 leaves everything but the cores. -/
theorem State.rewind_rest (s : State) :
    s.rewind.search = s.search ∧ s.rewind.cmds = s.cmds ∧ s.rewind.params = s.params := by
  unfold State.rewind
  cases s.before <;> exact ⟨rfl, rfl, rfl⟩

/-- Going on leaves the search, the host's commands and the parameters. -/
theorem State.moveOn_rest (s : State) (o : Orch) :
    (s.moveOn o).search = s.search ∧ (s.moveOn o).cmds = s.cmds ∧ (s.moveOn o).params = s.params := by
  unfold State.moveOn
  split
  · exact ⟨rfl, rfl, rfl⟩
  · split
    · exact ⟨rfl, rfl, rfl⟩
    · exact s.rewind_rest

/-- Taking a return leaves the search, the host's commands and the parameters. -/
theorem State.afterRun_rest (s : State) (o : Orch) (e : ExitStatus) :
    (s.afterRun o e).search = s.search ∧ (s.afterRun o e).cmds = s.cmds ∧ (s.afterRun o e).params = s.params := by
  unfold State.afterRun
  split
  · exact ⟨rfl, rfl, rfl⟩
  · exact s.moveOn_rest _

/-- A search's next trial: a network constructed afresh, then its drive issued (R174, R176). -/
theorem State.searchStep_of_trial {s : State} {q : Search} {p : List Word} {ps : List (List Word)}
    (ht : q.trial = false) (htd : q.todo = p :: ps) :
    s.searchStep q =
      ({ s with search := some { q with todo := ps, trial := true } }.constructNet q.image q.topology
        p.length).startDrive p := by
  simp [State.searchStep, ht, htd]

/-- What `everyPlace` lists. -/
theorem mem_everyPlace {x : Word} {l p : List Word} :
    p ∈ everyPlace x l ↔ ∃ l1 l2, l = l1 ++ l2 ∧ p = l1 ++ x :: l2 := by
  induction l generalizing p with
  | nil => simp [everyPlace]
  | cons y ys ih =>
    simp only [everyPlace, List.mem_cons, List.mem_map, ih]
    constructor
    · rintro (rfl | ⟨z, ⟨l1, l2, rfl, rfl⟩, rfl⟩)
      · exact ⟨[], y :: ys, rfl, rfl⟩
      · exact ⟨y :: l1, l2, rfl, rfl⟩
    · rintro ⟨l1, l2, h, rfl⟩
      cases l1 with
      | nil => exact .inl (by simp_all)
      | cons z l1 =>
        simp at h
        exact .inr ⟨l1 ++ x :: l2, ⟨l1, l2, h.2, rfl⟩, by simp [h.1]⟩

/-- `permutations` lists exactly the permutations (R174). -/
theorem mem_permutations {l p : List Word} : p ∈ permutations l ↔ p.Perm l := by
  induction l generalizing p with
  | nil => simp [permutations]
  | cons x xs ih =>
    simp only [permutations, List.mem_flatMap, ih, mem_everyPlace]
    constructor
    · rintro ⟨q, hq, l1, l2, rfl, rfl⟩
      exact List.perm_middle.trans (hq.cons x)
    · intro h
      have : x ∈ p := h.symm.subset List.mem_cons_self
      obtain ⟨l1, l2, rfl⟩ := List.append_of_mem this
      exact ⟨l1 ++ l2, List.perm_cons x |>.mp (List.perm_middle.symm.trans h), l1, l2, rfl, rfl⟩

/-- The number of places. -/
theorem length_everyPlace (x : Word) (l : List Word) : (everyPlace x l).length = l.length + 1 := by
  induction l with
  | nil => rfl
  | cons y ys ih => simp [everyPlace, ih]

/-- There are `N!` of them (R174). -/
theorem length_permutations (l : List Word) : (permutations l).length = l.length.factorial := by
  induction l with
  | nil => rfl
  | cons x xs ih =>
    have : ∀ p ∈ permutations xs, (everyPlace x p).length = xs.length + 1 := by
      intro p hp
      rw [length_everyPlace, (mem_permutations.mp hp).length_eq]
    simp only [permutations, List.length_flatMap, List.length_cons]
    rw [List.map_congr_left this]
    simp [ih, Nat.factorial_succ, Nat.mul_comm]

end Sys2Proof.Machine
end

