-- ==== Sys2Proof/Laws/Invariant.lean ====
section
/-! SUPPORT. Each action of the block keeps the invariant. -/

namespace Sys2Proof.Machine

open Sys2Proof

/-- A running core stays sound and constructed, and is not `Ready` after a step. -/
theorem step_running_sound {s t : State} (hi : s.Inv) (hr : s.core.status = .running)
    (h : step s = .next t) :
    ∃ c, t = s.withCore c ∧ c.Sound ∧ c.status ≠ .ready ∧ c.constructed = true := by
  have hs := hi.core
  have hm : s.core.constructed = true := hs.constructed_of_ne_ready (by simp [hr])
  rcases step_running_eq_next hr h with ⟨i, c, _, hx, rfl⟩ | ⟨f, rfl⟩
  · have hm' : c.constructed = true := (coreExec_keeps hx).2.2.trans hm
    refine ⟨c, rfl, ⟨(coreExec_keeps hx).1 hs.1, ?_, by simp [hm']⟩, ?_, hm'⟩
    · rw [(coreExec_keeps hx).2.1]
      have := hs.2.1
      rw [hr] at this
      have hn : s.core.cause.isSome = false := by simpa using this
      rw [hn]
      rcases coreExec_status hx with h | ⟨h, _⟩ | ⟨h, _⟩ <;> simp [h, hr]
    · rcases coreExec_status hx with h | ⟨h, _⟩ | ⟨h, _⟩ <;> simp [h, hr]
  · exact ⟨_, rfl, ⟨hs.1, by simp, by simp [hm]⟩, by simp, hm⟩

/-- Cores stay constructed when the selected one is replaced by a constructed one. -/
theorem made_of_core {b a : List VmCore} {c c' : VmCore} (h : ∀ x ∈ b ++ c :: a, x.constructed = true)
    (hc : c'.constructed = true) : ∀ x ∈ b ++ c' :: a, x.constructed = true := by
  intro x hx
  rcases List.mem_append.mp hx with hx | hx
  · exact h x (by simp [hx])
  · rcases List.mem_cons.mp hx with rfl | hx
    · exact hc
    · exact h x (by simp [hx])

/-- The orchestrator does not look at the selected core's state, but for whether it was constructed and ever run. -/
theorem Orch.Fits.withCore {o : Orch} {b a : List VmCore} {c c' : VmCore} (h : o.Fits b c a) (hc : c'.status ≠ .ready)
    (hm : c'.constructed = true) : o.Fits b c' a :=
  ⟨h.count, made_of_core h.made hm, h.built, h.phases, h.signal, h.passed, fun _ _ => hc, h.idle⟩

/-- Issuing a run keeps the invariant. -/
theorem issueRun_inv {s : State} {o : Orch} (hi : s.Inv) (ho : s.orch = some o)
    (hd : o.netstatus = .driving) : (s.issueRun o).Inv := by
  have hf := hi.orch o ho
  have hs : VmCore.Sound { s.core with inq := s.core.inq ++ o.seeds s.before.length, outq := [] } := hi.core
  have hm : s.core.constructed = true := hf.made _ (by simp)
  refine ⟨hi.before, hs.startRun hm _, hi.after, ?_, ?_⟩
  · rintro _ ⟨⟩
    exact ⟨hf.count, made_of_core hf.made (by simp [State.issueRun, hm]), hf.built, hf.phases, hf.signal, hf.passed,
      fun _ _ => VmCore.startRun_status_ne_ready _ _, fun h => absurd hd h⟩
  · intro q hq
    have h := hi.search q hq
    exact ⟨h.homeBefore, h.homeCore, h.homeAfter, h.homeOrch, fun _ => .inr ⟨_, rfl, hd⟩⟩

/-- Ending a drive in a fault keeps it. -/
theorem failDrive_inv {s : State} {o : Orch} {f : NetFault} (hi : s.Inv)
    (hc : s.before.length + 1 + s.after.length = max 1 o.n) (hm : ∀ c ∈ s.cores, c.constructed = true) :
    (s.failDrive o f).Inv := by
  refine ⟨hi.before, hi.core, hi.after, ?_, ?_⟩
  · rintro _ ⟨⟩
    exact ⟨hc, hm, by simp, by simp, by simp, by simp, by simp, by simp⟩
  · intro q hq
    have h := hi.search q hq
    exact ⟨h.homeBefore, h.homeCore, h.homeAfter, h.homeOrch, fun _ => .inl rfl⟩

/-- Going on to the next core, pass or end keeps it. -/
theorem moveOn_inv {s : State} {o : Orch} (hi : s.Inv) (hr : s.core.status ≠ .running)
    (hc : s.before.length + 1 + s.after.length = max 1 o.n) (hm : ∀ c ∈ s.cores, c.constructed = true)
    (hd : o.netstatus = .driving) (hp : o.phases.length = o.n ∧ 1 ≤ o.n) (hsg : o.signal.isSome)
    (hst : o.st.length = s.before.length + 1) : (s.moveOn o).Inv := by
  have hpk : s.core.Parked := ⟨hi.core, hr⟩
  unfold State.cores at hm
  unfold State.moveOn
  split
  · rename_i c cs ha
    have haf := hi.after
    rw [ha] at haf
    refine ⟨?_, (haf c List.mem_cons_self).1, fun x hx => haf x (List.mem_cons_of_mem _ hx), ?_, ?_⟩
    · intro x hx
      rcases List.mem_append.mp hx with hx | hx
      · exact hi.before x hx
      · rw [List.mem_singleton.mp hx]; exact hpk
    · rintro _ ⟨⟩
      refine ⟨?_, by simpa [ha] using hm, by simp [hd], fun _ => hp, fun _ => hsg, fun _ => by simp [hst], by simp,
        by simp⟩
      simp [ha] at hc ⊢; omega
    · intro q hq
      have h := hi.search q hq
      exact ⟨h.homeBefore, h.homeCore, h.homeAfter, h.homeOrch, fun _ => .inr ⟨_, rfl, hd⟩⟩
  · rename_i ha
    split
    · refine ⟨hi.before, hi.core, hi.after, ?_, ?_⟩
      · rintro _ ⟨⟩
        exact ⟨hc, hm, by simp, by simp, by simp, by simp, by simp, by simp⟩
      · intro q hq
        have h := hi.search q hq
        exact ⟨h.homeBefore, h.homeCore, h.homeAfter, h.homeOrch, fun _ => .inl (by simpa using hsg)⟩
    · have hsr : ∀ q, s.search = some q →
          q.Fits (some { o with st := [], pass := o.pass + 1, waiting := false }) s.reply := by
        intro q hq
        have h := hi.search q hq
        exact ⟨h.homeBefore, h.homeCore, h.homeAfter, h.homeOrch, fun _ => .inr ⟨_, rfl, hd⟩⟩
      unfold State.rewind
      cases hb : s.before with
      | nil =>
        refine ⟨hi.before, hi.core, hi.after, ?_, hsr⟩
        rintro _ ⟨⟩
        exact ⟨hc, hm, by simp [hd], fun _ => hp, fun _ => hsg, fun _ => by simp [hb], by simp, by simp⟩
      | cons c cs =>
        have hbf := hi.before
        rw [hb] at hbf
        refine ⟨by simp, (hbf c List.mem_cons_self).1, ?_, ?_, hsr⟩
        · intro x hx
          simp only [ha, List.mem_append, List.mem_singleton] at hx
          rcases hx with hx | hx
          · exact hbf x (List.mem_cons_of_mem _ hx)
          · rw [hx]; exact hpk
        · rintro _ ⟨⟩
          refine ⟨?_, by simpa [hb, ha] using hm, by simp, fun _ => hp, fun _ => hsg, fun _ => by simp, by simp, by simp⟩
          simp [hb, ha] at hc ⊢; omega

/-- Taking a run's return keeps it. -/
theorem afterRun_inv {s : State} {o : Orch} (e : ExitStatus) (hi : s.Inv) (hr : s.core.status ≠ .running)
    (ho : s.orch = some o) (hd : o.netstatus = .driving) : (s.afterRun o e).Inv := by
  have hf := hi.orch o ho
  unfold State.afterRun
  split
  · exact failDrive_inv hi hf.count hf.made
  · exact moveOn_inv hi hr hf.count hf.made hd (hf.phases hd) rfl (by simp [hf.passed hd])

/-- Constructing a network keeps it. -/
theorem constructNet_inv {s : State} (image : List Word) (topo : Topology) (n : Nat)
    (hs : ∀ q, s.search = some q → q.Fits none none ∧ q.trial = false) : (s.constructNet image topo n).Inv := by
  refine ⟨by simp [State.constructNet], (VmCore.construct_parked image).clone.1, ?_, ?_, ?_⟩
  · intro x hx
    rw [(List.mem_replicate.mp hx).2]; exact (VmCore.construct_parked image).clone
  · rintro _ ⟨⟩
    refine ⟨?_, ?_, fun _ => rfl, by simp, by simp, by simp, by simp, by simp⟩
    · simp [State.constructNet]; omega
    · simp [State.constructNet, VmCore.clone]
  · intro q hq
    obtain ⟨h, ht⟩ := hs q hq
    exact ⟨h.homeBefore, h.homeCore, h.homeAfter, h.homeOrch, by simp [ht]⟩

/-- A `drive` command keeps it. -/
theorem startDrive_inv {s t : State} {p : List Word} (hb : ∀ c ∈ s.before, c.Parked) (hc : s.core.Sound)
    (ha : ∀ c ∈ s.after, c.Parked) (hor : ∀ o, s.orch = some o → o.Fits s.before s.core s.after)
    (hs : ∀ q, s.search = some q → q.Fits (some ⟨.linear, 0, none, [], .driving, [], 0, false⟩) none)
    (h : s.startDrive p = .next t) : t.Inv := by
  unfold State.startDrive at h
  split at h
  · simp at h
  · rename_i o ho
    have hf := hor o ho
    split at h
    · rename_i hacc
      simp only [Host.Outcome.next.injEq] at h
      subst h
      unfold Orch.accepts at hacc
      simp at hacc
      refine ⟨hb, hc, ha, ?_, ?_⟩
      · rintro _ ⟨⟩
        exact ⟨hf.count, hf.made, by simp [Orch.start], fun _ => ⟨hacc.2.2, hacc.2.1⟩, fun _ => rfl,
          fun _ => by simp [hf.built hacc.1, Orch.start], by simp [Orch.start], by simp [Orch.start]⟩
      · intro q hq
        have h := hs q hq
        exact ⟨h.homeBefore, h.homeCore, h.homeAfter, h.homeOrch, fun _ => .inr ⟨_, rfl, rfl⟩⟩
    · simp only [Host.Outcome.next.injEq] at h
      subst h
      refine ⟨hb, hc, ha, hor, ?_⟩
      intro q hq
      have h := hs q hq
      exact ⟨h.homeBefore, h.homeCore, h.homeAfter, h.homeOrch, fun _ => .inl rfl⟩

/-- The invariant of a block with no network and no search. -/
theorem inv_none {s : State} (hb : ∀ c ∈ s.before, c.Parked) (hc : s.core.Sound) (ha : ∀ c ∈ s.after, c.Parked)
    (ho : s.orch = none) (hs : s.search = none) : s.Inv :=
  ⟨hb, hc, ha, by simp [ho], by simp [hs]⟩

/-- Every command of the host keeps it. -/
theorem hostStep_inv {s t : State} (hi : s.Inv) (hr : s.core.status ≠ .running)
    (hnd : ∀ o, s.orch = some o → o.netstatus ≠ .driving) (hs : s.search = none) (h : s.hostStep = .next t) : t.Inv := by
  have hpk : s.core.Parked := ⟨hi.core, hr⟩
  unfold State.hostStep at h
  split at h
  · simp at h; exact h ▸ hi
  · rename_i k ks hk
    have hall : ∀ c ∈ s.cores, c.Parked := by
      intro c hc
      simp only [State.cores, List.mem_append, List.mem_cons] at hc
      rcases hc with hc | rfl | hc
      · exact hi.before c hc
      · exact hpk
      · exact hi.after c hc
    cases k with
    | construct image =>
      simp only [State.command] at h
      split at h <;> simp at h <;> subst h
      · rename_i ho
        exact inv_none hi.before (VmCore.construct_parked image).1 hi.after ho hs
      · exact inv_none (by simp) (VmCore.construct_parked image).1 (by simp) rfl hs
    | feed vs =>
      simp only [State.command, State.onOwnCore] at h
      split at h <;> simp at h; subst h
      rename_i ho
      exact inv_none hi.before hi.core hi.after ho hs
    | freshOutput =>
      simp only [State.command, State.onOwnCore] at h
      split at h <;> simp at h; subst h
      rename_i ho
      exact inv_none hi.before hi.core hi.after ho hs
    | run =>
      obtain ⟨ho, hm, h⟩ := State.onConstructed_eq_next h
      simp at h; subst h
      exact inv_none hi.before (hi.core.startRun hm _) hi.after ho hs
    | clone =>
      obtain ⟨ho, _, h⟩ := State.onConstructed_eq_next h
      simp at h; subst h
      refine inv_none hi.before hi.core ?_ ho hs
      intro c hc
      rcases List.mem_append.mp hc with hc | hc
      · exact hi.after c hc
      · rw [List.mem_singleton.mp hc]; exact hpk.clone
    | select i =>
      simp only [State.command, State.onOwnCore, State.selectCore] at h
      split at h
      · simp at h
      rename_i ho
      split at h <;> simp at h; subst h
      rename_i c hc
      refine inv_none (fun x hx => hall x (List.mem_of_mem_take hx))
        (hall c (List.mem_of_getElem? hc)).1
        (fun x hx => hall x (List.mem_of_mem_drop hx)) ho hs
    | constructNet image topo n =>
      simp [State.command] at h; subst h
      exact constructNet_inv image topo n (by simp [hs])
    | drive p =>
      exact startDrive_inv (s := { s with cmds := ks }) hi.before hi.core hi.after hi.orch (by simp [hs]) h
    | search image topo ps =>
      simp only [State.command, State.startSearch] at h
      split at h <;> simp at h; subst h
      refine ⟨hi.before, hi.core, hi.after, hi.orch, ?_⟩
      rintro _ ⟨⟩
      exact ⟨hi.before, hpk, hi.after, fun o ho => ⟨hi.orch o ho, hnd o ho⟩, by simp⟩

/-- The end of a search keeps it. -/
theorem endSearch_inv {s : State} {q : Search} {r : Option Reply} (h : q.Fits s.orch s.reply) : (s.endSearch q r).Inv :=
  ⟨h.homeBefore, h.homeCore.1, h.homeAfter, fun o ho => (h.homeOrch o ho).1, by simp [State.endSearch]⟩

/-- Every action of the search keeps it. -/
theorem searchStep_inv {s t : State} {q : Search} (hi : s.Inv) (hs : s.search = some q) (h : s.searchStep q = .next t) : t.Inv := by
  have hq := hi.search q hs
  unfold State.searchStep at h
  split at h
  · split at h <;> simp at h <;> subst h
    · refine ⟨hi.before, hi.core, hi.after, hi.orch, ?_⟩
      rintro _ ⟨⟩
      exact ⟨hq.homeBefore, hq.homeCore, hq.homeAfter, hq.homeOrch, by simp⟩
    · exact endSearch_inv hq
  · split at h
    · simp at h; subst h; exact endSearch_inv hq
    · have h0 := constructNet_inv (s := { s with search := none }) q.image q.topology
      rename_i hqt p ps _
      have hn := h0 p.length (by simp)
      refine startDrive_inv
        (s := State.constructNet { s with search := some { q with todo := ps, trial := true } } q.image q.topology
          p.length) hn.before hn.core hn.after hn.orch ?_ h
      rintro _ ⟨⟩
      exact ⟨hq.homeBefore, hq.homeCore, hq.homeAfter, hq.homeOrch, fun _ => .inr ⟨_, rfl, rfl⟩⟩

end Sys2Proof.Machine
end

