-- ==== Sys2Proof/Laws/PerInstr.lean ====
section
/-! SUPPORT. Facts about every instruction as syntax, one lemma per constructor. -/

/-- The word count of an encoded instruction is its opcode's length (R64, R77). -/
def Sys2Proof.Laws.WordCount.Statement (i : Sys2Proof.Instr) : Prop :=
  (Sys2Proof.encode i).length = i.head.op.len

namespace Sys2Proof.Laws.WordCount

theorem add (a b d : Operand) : Statement (.add a b d) := rfl
theorem mul (a b d : Operand) : Statement (.mul a b d) := rfl
theorem inp (d : Operand) : Statement (.inp d) := rfl
theorem out (a : Operand) : Statement (.out a) := rfl
theorem jt (a b : Operand) : Statement (.jt a b) := rfl
theorem jf (a b : Operand) : Statement (.jf a b) := rfl
theorem lt (a b d : Operand) : Statement (.lt a b d) := rfl
theorem eq (a b d : Operand) : Statement (.eq a b d) := rfl
theorem arb (a : Operand) : Statement (.arb a) := rfl
theorem halt : Statement .halt := rfl

end Sys2Proof.Laws.WordCount

/-- The instruction word of a well-formed instruction decodes to its opcode and modes (R67, R74). -/
def Sys2Proof.Laws.WordReadBack.Statement (i : Sys2Proof.Instr) : Prop :=
  i.wf = true → Sys2Proof.decodeWord (Sys2Proof.encodeHead i.head) = .ok i.head

namespace Sys2Proof.Laws.WordReadBack

theorem of_wf (i : Instr) : Statement i := fun h => decodeWord_encodeHead _ (Instr.wf_target h)

theorem add (a b d : Operand) : Statement (.add a b d) := of_wf _
theorem mul (a b d : Operand) : Statement (.mul a b d) := of_wf _
theorem inp (d : Operand) : Statement (.inp d) := of_wf _
theorem out (a : Operand) : Statement (.out a) := of_wf _
theorem jt (a b : Operand) : Statement (.jt a b) := of_wf _
theorem jf (a b : Operand) : Statement (.jf a b) := of_wf _
theorem lt (a b d : Operand) : Statement (.lt a b d) := of_wf _
theorem eq (a b d : Operand) : Statement (.eq a b d) := of_wf _
theorem arb (a : Operand) : Statement (.arb a) := of_wf _
theorem halt : Statement .halt := of_wf _

end Sys2Proof.Laws.WordReadBack
end

