-- ==== Sys2Proof/Tests/Slice0.lean ====
section
/-! SUPPORT. The model's own tests. Every expected value is taken from spec/95_test_vectors.md or from the rule named beside
it, never from the model. The `witness_` theorems show that the hypotheses of the obligation of that name can all be met
together, clause by clause where it has several. -/

namespace Sys2Proof.Tests

open Sys2Proof Sys2Proof.Machine

/-- A list of integers as WORDs. -/
def words (l : List Int) : List Word := l.map wordOf

/-- A running core, alone in its block: image, input, and where it stands. -/
def running (image : List Int) (inq : List Int := []) (ip : Int := 0) (rb : Int := 0) : State :=
  { State.reset with core :=
      { VmCore.construct (words image) with status := .running, inq := words inq, ip := wordOf ip, rb := wordOf rb } }

/-- The same block under `MEM_LIMIT = some n`. -/
def limited (n : Nat) (s : State) : State := { s with params := { s.params with memLimit := some n } }

/-- The state after one step; the state itself where there is none. -/
def after (s : State) : State :=
  match step s with
  | .next t    => t
  | .fault _   => s
  | .refused _ => s

/-- A step gives a next state in which the core answers `f` with `v`. -/
def steps {α : Type} [DecidableEq α] (s : State) (f : VmCore → α) (v : α) : Bool :=
  match step s with
  | .next t    => decide (f t.core = v)
  | .fault _   => false
  | .refused _ => false

/-- Status, `ip` and cause: what a fault's report and a stop are read from. -/
def outcome (c : VmCore) : Status × Word × Option Cause := (c.status, c.ip, c.cause)

/-! ### Well-formedness: every check refuses an ill-formed term (R72, R11) -/

theorem test_wf_add : (Instr.add ⟨.position, 0⟩ ⟨.position, 0⟩ ⟨.immediate, 0⟩).wf = false := by decide
theorem test_wf_mul : (Instr.mul ⟨.position, 0⟩ ⟨.position, 0⟩ ⟨.immediate, 0⟩).wf = false := by decide
theorem test_wf_inp : (Instr.inp ⟨.immediate, 0⟩).wf = false := by decide
theorem test_wf_lt : (Instr.lt ⟨.position, 0⟩ ⟨.position, 0⟩ ⟨.immediate, 0⟩).wf = false := by decide
theorem test_wf_eq : (Instr.eq ⟨.position, 0⟩ ⟨.position, 0⟩ ⟨.immediate, 0⟩).wf = false := by decide
theorem test_wf_read_operands : (Instr.jt ⟨.immediate, 0⟩ ⟨.immediate, 0⟩).wf = true := by decide
theorem test_wf_params : Params.wf { memLimit := some 0 } = false ∧ Params.wf { } = true := by decide
theorem test_wf_phase_set : phaseSetWf (words [1, 2, 1]) = false ∧ phaseSetWf (words [1, 2, 3]) = true := by decide

/-! ### Decoding: words written out from the digit layout of R61 and the tables of R63 and R64 -/

theorem test_decode_add :
    decode (words [21101, 3, 4, 0]) = .ok (.add ⟨.immediate, 3⟩ ⟨.immediate, 4⟩ ⟨.relative, 0⟩, []) := by rfl
theorem test_decode_mul :
    decode (words [1002, 4, 3, 4, 33]) = .ok (.mul ⟨.position, 4⟩ ⟨.immediate, 3⟩ ⟨.position, 4⟩, [33]) := by rfl
theorem test_decode_inp : decode (words [203, 7]) = .ok (.inp ⟨.relative, 7⟩, []) := by rfl
theorem test_decode_out : decode (words [204, -1]) = .ok (.out ⟨.relative, -1⟩, []) := by rfl
theorem test_decode_jt : decode (words [1005, 28, 6]) = .ok (.jt ⟨.position, 28⟩ ⟨.immediate, 6⟩, []) := by rfl
theorem test_decode_jf : decode (words [106, 5, 9]) = .ok (.jf ⟨.immediate, 5⟩ ⟨.position, 9⟩, []) := by rfl
theorem test_decode_lt :
    decode (words [20107, 8, 21, 20]) = .ok (.lt ⟨.immediate, 8⟩ ⟨.position, 21⟩ ⟨.relative, 20⟩, []) := by rfl
theorem test_decode_eq :
    decode (words [1208, 21, 8, 20]) = .ok (.eq ⟨.relative, 21⟩ ⟨.immediate, 8⟩ ⟨.position, 20⟩, []) := by rfl
theorem test_decode_arb : decode (words [109, 5]) = .ok (.arb ⟨.immediate, 5⟩, []) := by rfl
theorem test_decode_halt : decode (words [99]) = .ok (.halt, []) := by rfl

/-- R74's own examples of alias words. -/
theorem test_decode_aliases :
    decode (words [22299]) = .ok (.halt, []) ∧ decode (words [10004, 2]) = .ok (.out ⟨.position, 2⟩, []) ∧
      decode (words [2009, 0]) = .ok (.arb ⟨.position, 0⟩, []) := by
  exact ⟨rfl, rfl, rfl⟩

/-- L2-DECODE: every first word the decoder rejects there, with its fault. -/
theorem test_decode_rejects :
    decodeWord 98 = .error (.illegalOpcode 98) ∧ decodeWord 0 = .error (.illegalOpcode 0) ∧
    decodeWord (wordOf (-1)) = .error (.illegalOpcode (wordOf (-1))) ∧ decodeWord 301 = .error (.illegalMode 301 0) ∧
    decodeWord 30004 = .error (.illegalMode 30004 2) ∧ decodeWord 399 = .error (.illegalMode 399 0) ∧
    decodeWord 100099 = .error (.illegalMode 100099 3) ∧ decodeWord 11101 = .error (.immediateWrite 11101 2) ∧
    decodeWord 103 = .error (.immediateWrite 103 0) := by
  exact ⟨rfl, rfl, rfl, rfl, rfl, rfl, rfl, rfl, rfl⟩

/-- A list that ends inside an instruction is rejected by name. -/
theorem test_decode_truncated : decode (words [1101, 1, 1]) = .error .truncated := by rfl

/-- The table's numbering: the second WORD's bits count on from the first's. -/
theorem test_table_word :
    decodeTableWord 64 99 = some .halt ∧ decodeTableWord 128 (104 + 77 * 2 ^ 64) = some (.out ⟨.immediate, 77⟩) ∧
      decodeTableWord 8 1 = some (.add ⟨.position, 0⟩ ⟨.position, 0⟩ ⟨.position, 0⟩) ∧ decodeTableWord 64 98 = none := by
  exact ⟨rfl, rfl, rfl, rfl⟩

/-- The word stands where the next step fetches, and that step runs it. -/
theorem test_fetch_word :
    steps (State.reset.withFetchWord 128 (109 + 5 * 2 ^ 64)) (fun c => (c.rb, c.ip)) (5, 2) ∧
      steps (State.reset.withFetchWord 8 99) VmCore.status .terminated := by decide

/-! ### One step of each instruction -/

/-- L1-1: Position mode, source and destination one word. -/
theorem test_add_position : steps (running [1, 0, 0, 0, 99]) (fun c => (c.mem.read 0, c.ip, c.status)) (2, 4, .running) := by
  decide
/-- L2-ARITH `1101,MAX,1,0,99`. -/
theorem test_add_overflow :
    steps (running [1101, wordMax, 1, 0, 99]) outcome (.faulted, 0, some (.overflow .add (wordOf wordMax) 1)) := by decide
/-- L1-3: mixed modes. -/
theorem test_mul_modes : steps (running [1002, 4, 3, 4, 33]) (fun c => (c.mem.read 4, c.ip)) (99, 4) := by decide
/-- L2-ARITH `1102,MIN,-1,0,99`. -/
theorem test_mul_overflow :
    steps (running [1102, wordMin, -1, 0, 99]) outcome
      (.faulted, 0, some (.overflow .mul (wordOf wordMin) (wordOf (-1)))) := by decide
/-- L2-IN `3,0,4,0,99` with input 1,2,3: one value is taken. -/
theorem test_inp_takes_the_head :
    steps (running [3, 0, 4, 0, 99] [1, 2, 3]) (fun c => (c.mem.read 0, c.inq, c.ip)) (1, words [2, 3], 2) := by decide
/-- L2-IN `3,0,99` without input. -/
theorem test_inp_suspends :
    steps (running [3, 0, 99]) (fun c => (c.status, c.ip, c.mem.read 0, c.cause)) (.awaitingInput, 0, 3, none) := by decide
/-- L1-9: all 64 bits of the value. -/
theorem test_out_large : steps (running [104, 1125899906842624, 99]) VmCore.outq (words [1125899906842624]) := by decide
/-- L2-ARB `109,5,204,-3,99`, its second instruction. -/
theorem test_out_relative :
    steps (running [109, 5, 204, -3, 99] [] 2 5) (fun c => (c.outq, c.ip)) (words [204], 4) := by decide
/-- L2-JUMP `5,7,8,104,1,99,0,1,5`: Position mode reads condition and target. -/
theorem test_jt_taken : steps (running [5, 7, 8, 104, 1, 99, 0, 1, 5]) VmCore.ip 5 := by decide
/-- L2-JUMP `1105,1,-1`: the jump itself does not fault. -/
theorem test_jt_negative_target :
    steps (running [1105, 1, -1]) (fun c => (c.ip, c.status)) (wordOf (-1), .running) := by decide
/-- L2-JUMP `1106,0,5,104,1,99`. -/
theorem test_jf_taken : steps (running [1106, 0, 5, 104, 1, 99]) VmCore.ip 5 := by decide
/-- L2-JUMP `1106,7,5,104,1,99`. -/
theorem test_jf_not_taken : steps (running [1106, 7, 5, 104, 1, 99]) VmCore.ip 3 := by decide
/-- L2-CMP `1107,MIN,MAX,7,...`: the comparison is signed. -/
theorem test_lt_signed : steps (running [1107, wordMin, wordMax, 7, 4, 7, 99, -1]) (fun c => c.mem.read 7) 1 := by decide
/-- L2-CMP `1107,5,5,7,...`. -/
theorem test_lt_equal : steps (running [1107, 5, 5, 7, 4, 7, 99, -1]) (fun c => (c.mem.read 7, c.ip)) (0, 4) := by decide
/-- L2-CMP `1108,5,5,7,...`. -/
theorem test_eq_equal : steps (running [1108, 5, 5, 7, 4, 7, 99, -1]) (fun c => c.mem.read 7) 1 := by decide
/-- L2-CMP `1108,5,-5,7,...`. -/
theorem test_eq_sign : steps (running [1108, 5, -5, 7, 4, 7, 99, -1]) (fun c => (c.mem.read 7, c.ip)) (0, 4) := by decide
/-- L2-ARB `209,0,99`: the operand is resolved with the old base. -/
theorem test_arb_relative : steps (running [209, 0, 99]) (fun c => (c.rb, c.ip)) (209, 2) := by decide
/-- L2-ARB `109,MAX,109,1,99`, its second instruction. -/
theorem test_arb_overflow :
    steps (running [109, wordMax, 109, 1, 99] [] 2 wordMax) outcome
      (.faulted, 2, some (.overflow .arb (wordOf wordMax) 1)) := by decide
/-- L2-HALT `99`. -/
theorem test_halt : steps (running [99]) outcome (.terminated, 0, none) := by decide
/-- L2-HALT `22299`, an alias. -/
theorem test_halt_alias : steps (running [22299]) outcome (.terminated, 0, none) := by decide

/-! ### Faults of the shared stages -/

/-- L2-JUMP `1105,1,-1`: the fetch faults. -/
theorem test_fetch_negative :
    steps (running [1105, 1, -1] [] (-1)) outcome (.faulted, wordOf (-1), some (.negativeAddress (-1))) := by decide
/-- L2-IN `3,-1,99` without input: the address is checked before the input. -/
theorem test_target_before_input : steps (running [3, -1, 99]) outcome (.faulted, 0, some (.negativeAddress (-1))) := by
  decide
/-- L2-ARB `109,MAX,204,1,99`, its second instruction: the address sum is exact. -/
theorem test_address_sum_exact :
    steps (running [109, wordMax, 204, 1, 99] [] 2 wordMax) outcome
      (.faulted, 2, some (.outOfCapacity 9223372036854775808)) := by decide
/-- L2-ADDR under `MEM_LIMIT = some 10`: address 10 faults, address 9 does not. -/
theorem test_capacity_limit :
    steps (limited 10 (running [1101, 1, 1, 10, 99])) outcome (.faulted, 0, some (.outOfCapacity 10)) ∧
      steps (limited 10 (running [1101, 1, 1, 9, 99])) (fun c => (c.mem.read 9, c.status)) (2, .running) := by decide
/-- L2-ADDR: the OUT at `MAX - 1` cannot advance. -/
theorem test_advance_past_the_top :
    steps { State.reset with core := { VmCore.construct [] with
        mem := [(9223372036854775806, 104), (9223372036854775807, 7)], ip := wordOf (wordMax - 1), status := .running } }
      outcome (.faulted, wordOf (wordMax - 1), some (.outOfCapacity 9223372036854775808)) := by decide

/-! ### Witnesses: encoding -/

/-- `a` is a valid address with no limit. -/
theorem valid_none {a : Int} (h : 0 ≤ a ∧ a ≤ addrMax) : ValidAddr none a := ⟨h.1, h.2, by simp⟩

/-- `a` is a valid address under a limit. -/
theorem valid_some {a : Int} {n : Nat} (h : 0 ≤ a ∧ a ≤ addrMax ∧ a < n) : ValidAddr (some n) a :=
  ⟨h.1, h.2.1, by rintro _ ⟨⟩; exact h.2.2⟩

theorem witness_DecodeOfEncodeIsIdentity :
    (Instr.add ⟨.immediate, wordOf wordMin⟩ ⟨.relative, wordOf wordMax⟩ ⟨.position, 0⟩).wf = true ∧
      (Instr.inp ⟨.relative, 0⟩).wf = true := by decide

theorem witness_DecodedWordsAreTheInstruction : ∃ i rest, decode (words [22201, 1, 2, 3, 4]) = .ok (i, rest) :=
  ⟨_, _, rfl⟩

theorem witness_WordsWithoutAnOpcodeAreIllegal :
    (wordOf wordMin).toInt < 0 ∧ (wordOf (-1)).toInt < 0 ∧
      (0 ≤ (0 : Word).toInt ∧ (0 : Word).toNat % 100 = 0) ∧
      (0 ≤ (10 : Word).toInt ∧ 10 ≤ (10 : Word).toNat % 100 ∧ (10 : Word).toNat % 100 ≤ 98) ∧
      (0 ≤ (wordOf 9223372036854775798).toInt ∧ (wordOf 9223372036854775798).toNat % 100 = 98) := by decide

theorem witness_LowestIllegalModeDigitIsReported :
    (0 ≤ (399 : Word).toInt ∧ (399 : Word).toNat % 100 = 99 ∧ 3 ≤ (399 : Word).toNat / 10 ^ (0 + 2) % 10) ∧
      (0 ≤ (30004 : Word).toInt ∧ 1 ≤ (30004 : Word).toNat % 100 ∧ (30004 : Word).toNat % 100 ≤ 9 ∧
        (∀ j < 2, (30004 : Word).toNat / 10 ^ (j + 2) % 10 ≤ 2) ∧ 3 ≤ (30004 : Word).toNat / 10 ^ (2 + 2) % 10) := by
  decide

theorem witness_DigitsAboveTheModesAreIllegal :
    ((100099 : Word).toNat % 100 = 99 ∧ (∀ j < 3, (100099 : Word).toNat / 10 ^ (j + 2) % 10 ≤ 2) ∧
      100000 ≤ (100099 : Word).toInt) ∧
    (1 ≤ (100001 : Word).toNat % 100 ∧ (100001 : Word).toNat % 100 ≤ 9 ∧
      (∀ j < 3, (100001 : Word).toNat / 10 ^ (j + 2) % 10 ≤ 2) ∧ 100000 ≤ (100001 : Word).toInt) := by decide

theorem witness_ImmediateWriteTargetsAreIllegal :
    (0 ≤ (11101 : Word).toInt ∧ (11101 : Word).toInt < 100000 ∧ (∀ j < 3, (11101 : Word).toNat / 10 ^ (j + 2) % 10 ≤ 2) ∧
      (11101 : Word).toNat % 100 = 1 ∧ (11101 : Word).toNat / 10000 % 10 = 1) ∧
    (0 ≤ (22103 : Word).toInt ∧ (22103 : Word).toInt < 100000 ∧ (∀ j < 3, (22103 : Word).toNat / 10 ^ (j + 2) % 10 ≤ 2) ∧
      (22103 : Word).toNat % 100 = 3 ∧ (22103 : Word).toNat / 100 % 10 = 1) := by decide

theorem witness_AliasWordsDecodeAsTheirCanonicalWord :
    decodeWord 22299 = .ok ⟨.halt, .relative, .relative, .relative⟩ ∧
      decodeWord 10004 = .ok ⟨.out, .position, .position, .immediate⟩ := ⟨rfl, rfl⟩

/-! ### Witnesses: fetch -/

/-- A HALT at the highest address. -/
def topHalt : State :=
  { State.reset with core :=
      { VmCore.construct [] with mem := [(9223372036854775807, 99)], ip := wordOf wordMax, status := .running } }

/-- An OUT at the highest address: its operand word has no cell. -/
def topOut : State :=
  { State.reset with core :=
      { VmCore.construct [] with mem := [(9223372036854775807, 104)], ip := wordOf wordMax, status := .running } }

theorem witness_StepRunsTheDecodedInstruction :
    (∃ i rest, (running [1002, 4, 3, 4, 33]).core.status = .running ∧
      (∀ k < (encode i).length, ValidAddr none ((running [1002, 4, 3, 4, 33]).core.ip.toInt + k)) ∧
      decode ((List.range 4).map fun k => (running [1002, 4, 3, 4, 33]).core.mem.read
        ((running [1002, 4, 3, 4, 33]).core.ip.toNat + k)) = .ok (i, rest)) ∧
    (∃ i rest, topHalt.core.status = .running ∧ (∀ k < (encode i).length, ValidAddr none (topHalt.core.ip.toInt + k)) ∧
      decode ((List.range 4).map fun k => topHalt.core.mem.read (topHalt.core.ip.toNat + k)) = .ok (i, rest)) := by
  refine ⟨⟨.mul ⟨.position, 4⟩ ⟨.immediate, 3⟩ ⟨.position, 4⟩, [], rfl, fun k hk => valid_none ?_, rfl⟩,
    ⟨.halt, [0, 0, 0], rfl, fun k hk => valid_none ?_, rfl⟩⟩
  · have : k < 4 := hk
    have : (running [1002, 4, 3, 4, 33]).core.ip.toInt = 0 := by decide
    have : addrMax = 9223372036854775807 := rfl
    omega
  · have : k < 1 := hk
    have : topHalt.core.ip.toInt = addrMax := by decide
    have : addrMax = 9223372036854775807 := rfl
    omega

theorem witness_FetchOutsideTheCapacityFaults :
    ((running [] [] (-1)).core.status = .running ∧ (running [] [] (-1)).core.ip.toInt < 0) ∧
      ((limited 10 (running [] [] 10)).core.status = .running ∧
        (limited 10 (running [] [] 10)).params.memLimit = some 10 ∧
        (10 : Int) ≤ (limited 10 (running [] [] 10)).core.ip.toInt) := by decide

theorem witness_RejectedWordFaultsTheRun :
    (running [98]).core.status = .running ∧ ValidAddr none (running [98]).core.ip.toInt ∧
      decodeWord ((running [98]).core.mem.read (running [98]).core.ip.toNat) = .error (.illegalOpcode 98) :=
  ⟨rfl, valid_none (by decide), rfl⟩

theorem witness_OperandWordBeyondTheCapacityFaults :
    topOut.core.status = .running ∧ 0 < Opcode.out.arity ∧ (∀ j ≤ 0, ValidAddr none (topOut.core.ip.toInt + (j : Nat))) ∧
      decodeWord (topOut.core.mem.read topOut.core.ip.toNat) = .ok ⟨.out, .immediate, .position, .position⟩ ∧
      ¬ ValidAddr none (topOut.core.ip.toInt + 0 + 1) := by
  refine ⟨rfl, by decide, fun j hj => ?_, rfl, fun h => absurd h.2.1 (by decide)⟩
  obtain rfl : j = 0 := by omega
  exact valid_none (by decide)

/-! ### Witnesses: addresses and operands -/

theorem witness_CheckAddrRaisesByRange :
    (-1 : Int) < 0 ∧ addrMax < 9223372036854775808 ∧ ((10 : Nat) : Int) ≤ 10 ∧
      ((0 : Int) ≤ 9 ∧ (9 : Int) ≤ addrMax ∧ ∀ n, some 10 = some n → (9 : Int) < (n : Nat)) :=
  ⟨by decide, by decide, by decide, by decide, by decide, by rintro _ ⟨⟩; decide⟩

/-- A core whose base is at the top. -/
def topBase : VmCore := (running [7] [] 0 wordMax).core

theorem witness_ReadOperandFollowsItsMode :
    ValidAddr none (wordOf wordMax).toInt ∧ ValidAddr (some 1) (0 : Word).toInt ∧
      ValidAddr none (topBase.rb.toInt + (0 : Word).toInt) ∧
      checkAddr none (wordOf (-1)).toInt = .error (.negativeAddress (-1)) ∧
      checkAddr none (topBase.rb.toInt + (1 : Word).toInt) = .error (.outOfCapacity 9223372036854775808) :=
  ⟨valid_none (by decide), valid_some (by decide), valid_none (by decide), rfl, rfl⟩

theorem witness_FirstFailingOperandIsReported :
    effectiveAddress 0 ⟨.position, wordOf (-1)⟩ = some (-1) ∧
      (running [7]).core.readOperand none ⟨.position, wordOf (-2)⟩ = .error (.negativeAddress (-2)) ∧
      (running [7]).core.readOperand none ⟨.position, 0⟩ = .ok 7 ∧
      (running [7]).core.readOperand none ⟨.immediate, 3⟩ = .ok 3 ∧
      checkAddr none (-1) = .error (.negativeAddress (-1)) := ⟨rfl, rfl, rfl, rfl, rfl⟩

theorem witness_ImmediateWriteInstructionFaults :
    ((Instr.add ⟨.immediate, 1⟩ ⟨.immediate, 1⟩ ⟨.immediate, 1⟩).wf = false ∧
      (Instr.add ⟨.immediate, 1⟩ ⟨.immediate, 1⟩ ⟨.immediate, 1⟩).head.op.writePosition = some 2) ∧
    ((Instr.inp ⟨.immediate, 5⟩).wf = false ∧ (Instr.inp ⟨.immediate, 5⟩).head.op.writePosition = some 0) := by decide

theorem witness_WordOfAnExactResultHasItsValue : Fits64 wordMin ∧ Fits64 wordMax ∧ Fits64 0 := by decide

/-! ### Witnesses: results. The core stands at 0, or where an advance just passes `ADDR_MAX`. -/

/-- Address 9 is a good Position target. -/
theorem target_nine (s : State) (h : s.params.memLimit = none) : s.core.TargetAt s.params.memLimit ⟨.position, 9⟩ 9 :=
  ⟨rfl, h ▸ valid_none (by decide)⟩

/-- The highest address is a good target too, in Relative mode. -/
theorem target_top : (running [7] [] 0 wordMax).core.TargetAt none ⟨.relative, 0⟩ 9223372036854775807 :=
  ⟨rfl, valid_none (by decide)⟩

theorem witness_AddStoresTheExactSum :
    ((running [7]).core.readOperand none ⟨.position, 0⟩ = .ok 7 ∧
      (running [7]).core.readOperand none ⟨.immediate, wordOf wordMax⟩ = .ok (wordOf wordMax)) ∧
    (Fits64 ((wordOf wordMin).toInt + (wordOf wordMax).toInt) ∧ (running [7]).core.ip.toInt + 4 ≤ addrMax) ∧
    ¬ Fits64 ((wordOf wordMax).toInt + (1 : Word).toInt) ∧
    (Fits64 ((7 : Word).toInt + (7 : Word).toInt) ∧ addrMax < (running [7] [] (wordMax - 3)).core.ip.toInt + 4) ∧
    (running [7]).core.TargetAt none ⟨.position, 9⟩ 9 :=
  ⟨⟨rfl, rfl⟩, by decide, by decide, by decide, target_nine _ rfl⟩

theorem witness_MulStoresTheExactProduct :
    ((running [7]).core.readOperand none ⟨.position, 0⟩ = .ok 7 ∧
      (running [7]).core.readOperand none ⟨.immediate, wordOf (-1)⟩ = .ok (wordOf (-1))) ∧
    (Fits64 ((wordOf wordMin).toInt * (1 : Word).toInt) ∧ (running [7]).core.ip.toInt + 4 ≤ addrMax) ∧
    ¬ Fits64 ((wordOf wordMin).toInt * (wordOf (-1)).toInt) ∧
    (Fits64 ((7 : Word).toInt * (7 : Word).toInt) ∧ addrMax < (running [7] [] (wordMax - 3)).core.ip.toInt + 4) ∧
    (running [7] [] 0 wordMax).core.TargetAt none ⟨.relative, 0⟩ 9223372036854775807 :=
  ⟨⟨rfl, rfl⟩, by decide, by decide, by decide, target_top⟩

theorem witness_LtStoresTheSignedComparison :
    (running [7]).core.readOperand none ⟨.position, 0⟩ = .ok 7 ∧ (running [7]).core.readOperand none ⟨.relative, 0⟩ = .ok 7 ∧
      (running [7]).core.TargetAt none ⟨.position, 9⟩ 9 ∧ (running [7]).core.ip.toInt + 4 ≤ addrMax ∧
      addrMax < (running [7] [] (wordMax - 3)).core.ip.toInt + 4 := ⟨rfl, rfl, target_nine _ rfl, by decide, by decide⟩

theorem witness_EqStoresTheEquality :
    (running [7]).core.readOperand none ⟨.position, 0⟩ = .ok 7 ∧ (running [7]).core.readOperand none ⟨.immediate, 7⟩ = .ok 7 ∧
      (running [7]).core.TargetAt none ⟨.position, 9⟩ 9 ∧ (running [7] [] (wordMax - 4)).core.ip.toInt + 4 ≤ addrMax ∧
      addrMax < (running [7] [] (wordMax - 3)).core.ip.toInt + 4 := ⟨rfl, rfl, target_nine _ rfl, by decide, by decide⟩

theorem witness_InStoresTheNextInputOrSuspends :
    (running [7] [5, 6]).core.TargetAt none ⟨.position, 9⟩ 9 ∧ (running [7] [5, 6]).core.inq = 5 :: words [6] ∧
      (running [7]).core.inq = [] ∧ (running [7]).core.ip.toInt + 2 ≤ addrMax ∧
      addrMax < (running [7] [] (wordMax - 1)).core.ip.toInt + 2 := ⟨target_nine _ rfl, rfl, rfl, by decide, by decide⟩

theorem witness_OutAppendsItsOperand :
    (running [7]).core.readOperand none ⟨.position, 0⟩ = .ok 7 ∧ (running [7] [] (wordMax - 2)).core.ip.toInt + 2 ≤ addrMax ∧
      addrMax < (running [7] [] (wordMax - 1)).core.ip.toInt + 2 := ⟨rfl, by decide, by decide⟩

theorem witness_JtJumpsWhenNonzero :
    (running [7]).core.readOperand none ⟨.position, 0⟩ = .ok 7 ∧
      (running [7]).core.readOperand none ⟨.immediate, wordOf (-1)⟩ = .ok (wordOf (-1)) ∧ (7 : Word) ≠ 0 ∧
      (running [7]).core.readOperand none ⟨.position, 1⟩ = .ok 0 ∧ (running [7] [] (wordMax - 3)).core.ip.toInt + 3 ≤ addrMax ∧
      addrMax < (running [7] [] (wordMax - 2)).core.ip.toInt + 3 := ⟨rfl, rfl, by decide, rfl, by decide, by decide⟩

theorem witness_JfJumpsWhenZero :
    (running [7]).core.readOperand none ⟨.position, 1⟩ = .ok 0 ∧ (running [7]).core.readOperand none ⟨.immediate, 9⟩ = .ok 9 ∧
      (running [7]).core.readOperand none ⟨.position, 0⟩ = .ok 7 ∧ (7 : Word) ≠ 0 ∧
      (running [7] [] (wordMax - 3)).core.ip.toInt + 3 ≤ addrMax ∧
      addrMax < (running [7] [] (wordMax - 2)).core.ip.toInt + 3 := ⟨rfl, rfl, rfl, by decide, by decide, by decide⟩

theorem witness_ArbAddsToTheBase :
    (running [7]).core.readOperand none ⟨.position, 0⟩ = .ok 7 ∧
      (Fits64 ((running [7] [] 0 (-7)).core.rb.toInt + (7 : Word).toInt) ∧ (running [7]).core.ip.toInt + 2 ≤ addrMax) ∧
      ¬ Fits64 ((running [7] [] 0 wordMax).core.rb.toInt + (7 : Word).toInt) ∧
      (Fits64 ((running [7] [] (wordMax - 1)).core.rb.toInt + (7 : Word).toInt) ∧
        addrMax < (running [7] [] (wordMax - 1)).core.ip.toInt + 2) := ⟨rfl, by decide, by decide, by decide⟩

theorem witness_PseudoInstructionsActAsNamed :
    (running [7]).core.ip.toInt + 3 ≤ addrMax ∧ (running [7]).core.readOperand none ⟨.position, 0⟩ = .ok 7 ∧
      (running [7]).core.TargetAt none ⟨.position, 9⟩ 9 ∧ (running [7]).core.ip.toInt + 4 ≤ addrMax :=
  ⟨by decide, rfl, target_nine _ rfl, by decide⟩

/-! ### Witnesses: frames -/

theorem witness_StoringInstructionsFrame :
    ∃ t, exec (.add ⟨.position, 0⟩ ⟨.position, 0⟩ ⟨.position, 9⟩) (running [7]) = .next t ∧ t.core.status ≠ .faulted ∧
      effectiveAddress (running [7]).core.rb ⟨.position, 9⟩ = some 9 := ⟨_, rfl, by decide, rfl⟩

theorem witness_InputFrame :
    (∃ t, exec (.inp ⟨.position, 9⟩) (running [7] [5]) = .next t ∧ t.core.status ≠ .faulted ∧ (running [7] [5]).core.inq ≠ []) ∧
      (∃ t, exec (.inp ⟨.position, 9⟩) (running [7]) = .next t ∧ t.core.status ≠ .faulted ∧ (running [7]).core.inq = []) :=
  ⟨⟨_, rfl, by decide, by decide⟩, ⟨_, rfl, by decide, rfl⟩⟩

theorem witness_NonStoringInstructionsFrame :
    (∃ t, t.core.status ≠ .faulted ∧ exec (.out ⟨.position, 0⟩) (running [7]) = .next t) ∧
      (∃ t, t.core.status ≠ .faulted ∧ exec (.jt ⟨.position, 0⟩ ⟨.immediate, 5⟩) (running [7]) = .next t) ∧
      (∃ t, t.core.status ≠ .faulted ∧ exec (.jf ⟨.position, 0⟩ ⟨.immediate, 5⟩) (running [7]) = .next t) ∧
      (∃ t, t.core.status ≠ .faulted ∧ exec (.arb ⟨.position, 0⟩) (running [7]) = .next t) ∧
      (∃ t, t.core.status ≠ .faulted ∧ exec .halt (running [7]) = .next t) :=
  ⟨⟨_, by decide, rfl⟩, ⟨_, by decide, rfl⟩, ⟨_, by decide, rfl⟩, ⟨_, by decide, rfl⟩, ⟨_, by decide, rfl⟩⟩

/-- The same core in a block with another core, another policy and a command waiting. -/
def otherBlock : State :=
  { running [7] with params := { noOutput := .keep }, after := [VmCore.reset], cmds := [.run] }

theorem witness_ExecSeesOnlyItsOwnCore :
    (running [7]).core = otherBlock.core ∧ (running [7]).params.memLimit = otherBlock.params.memLimit ∧
      running [7] ≠ otherBlock := by decide

/-! ### Witnesses: runs -/

theorem witness_RunningCoreTransitions : (running [99]).core.status = .running := rfl

theorem witness_OnlyArbChangesTheBase :
    ∃ t, (running [109, 5]).core.status = .running ∧ step (running [109, 5]) = .next t ∧ t.core.status ≠ .faulted ∧
      t.core.rb ≠ (running [109, 5]).core.rb := ⟨after (running [109, 5]), rfl, rfl, by decide, by decide⟩

theorem witness_InputsAreTakenInOrder :
    ∃ t, (running [3, 9] [5]).core.status = .running ∧ step (running [3, 9] [5]) = .next t :=
  ⟨after (running [3, 9] [5]), rfl, rfl⟩

theorem witness_OutputsAreAppendedInOrder :
    ∃ t, (running [104, 9]).core.status = .running ∧ step (running [104, 9]) = .next t ∧ t.core.status ≠ .faulted :=
  ⟨after (running [104, 9]), rfl, rfl, by decide⟩

theorem witness_SuspensionChangesOnlyTheStatus :
    ∃ t, (running [3, 9]).core.status = .running ∧ step (running [3, 9]) = .next t ∧ t.core.status = .awaitingInput :=
  ⟨after (running [3, 9]), rfl, rfl, by decide⟩

theorem witness_LaterInputIsNotSeen :
    ∃ t, (running [3, 9] [5]).core.status = .running ∧ step (running [3, 9] [5]) = .next t ∧
      t.core.status ≠ .awaitingInput := ⟨after (running [3, 9] [5]), rfl, rfl, by decide⟩

/-- The suspended run of `ARB #5; IN [9]`, given input and resumed, takes its IN: 2 steps, then 1. -/
theorem witness_SuspendThenResumeIsOneRun :
    ∃ t u, (running [109, 5, 3, 9]).core.status = .running ∧ CoreSteps 2 (running [109, 5, 3, 9]) t ∧
      t.core.status = .awaitingInput ∧ CoreSteps 1 (t.feed (words [5])).resume u ∧ u.core.mem.read 9 = 5 :=
  ⟨after (after (running [109, 5, 3, 9])), after ((after (after (running [109, 5, 3, 9]))).feed (words [5])).resume, rfl,
    .next rfl rfl (.next (by decide) rfl (.refl _)), by decide, .next (by decide) rfl (.refl _), by decide⟩

/-- The block at rest with commands waiting, its constructed core in a given status, under a given policy. -/
def resting (st : Status) (cause : Option Cause) (p : RunOnTerminated) (ks : List Cmd) : State :=
  { State.reset with
    params := { runOnTerminated := p }
    core   := { VmCore.construct [] with status := st, cause := cause }
    cmds   := ks }

theorem resting_atRest (st : Status) (cause : Option Cause) (p : RunOnTerminated) (ks : List Cmd) (h : st ≠ .running) :
    (resting st cause p ks).AtRest := ⟨h, rfl, by rintro _ ⟨⟩⟩

/-- Right after reset, with commands waiting: the core was never constructed. -/
def fresh (ks : List Cmd) : State := { State.reset with cmds := ks }

theorem fresh_atRest (ks : List Cmd) : (fresh ks).AtRest := ⟨(by decide : Status.ready ≠ .running), rfl, by rintro _ ⟨⟩⟩

/-- An orchestrator of `n` cores. -/
def orch (n : Nat) (t : Topology) (ns : NetStatus) (waiting : Bool) (pass : Nat) (st : List ExitStatus) : Orch :=
  { topology := t, n := n, signal := some 5, st := st, netstatus := ns, phases := words [3, 4], pass := pass,
    waiting := waiting }

/-- A network of two cores, standing at core `i`, its core in a given status with a given output. -/
def network (o : Orch) (i : Nat) (status : Status) (outq : List Int) (ks : List Cmd := []) : State :=
  { State.reset with
    before := List.replicate i (VmCore.construct [])
    core   := { VmCore.construct [] with status := status, outq := words outq
                                         cause := if status = .faulted then some .runAfterTerminated else none }
    after  := List.replicate (1 - i) (VmCore.construct [])
    orch   := some o
    cmds   := ks }

theorem network_atRest (o : Orch) (i : Nat) (status : Status) (outq : List Int) (ks : List Cmd) (h : status ≠ .running)
    (h2 : o.netstatus ≠ .driving) : (network o i status outq ks).AtRest := ⟨h, rfl, by rintro _ ⟨⟩; exact h2⟩

/-- R224: `run` as the first command is refused; after `construct` the same command starts a run. -/
theorem test_run_needs_construct :
    step (fresh [.run]) = .refused .neverConstructed ∧
      (after (after (fresh [.construct (words [99]), .run]))).core.status = .running := ⟨rfl, by decide⟩

/-- R30, R224, and the model's choice in log 3: nor is there a core to clone. -/
theorem test_clone_needs_construct : step (fresh [.clone]) = .refused .neverConstructed := by rfl

/-- R31, R92, and for `freshOutput` the model's choice in log 26: what the host does to a terminated core's channels leaves its status and `ip`. -/
theorem test_host_commands :
    steps { running [99] [4] 7 with core.status := .terminated, cmds := [.feed (words [5])] }
        (fun c => (c.status, c.ip, c.inq)) (.terminated, 7, words [4, 5]) ∧
      steps { running [99] [] 7 with core.status := .terminated, core.outq := words [1], cmds := [.freshOutput] }
        (fun c => (c.status, c.ip, c.outq)) (.terminated, 7, []) := by decide

/-- Two cores of the host's own, the first one selected, with commands waiting. -/
def twoCores (ks : List Cmd) : State := { resting .terminated none .noop ks with after := [VmCore.construct (words [99])] }

theorem witness_RunCommandFollowsTheStatus :
    ((fresh [.run]).AtRest ∧ (fresh [.run]).cmds = .run :: [] ∧ (fresh [.run]).core.constructed = false) ∧
      ((resting .ready none .noop [.run]).AtRest ∧ (resting .ready none .noop [.run]).cmds = .run :: [] ∧
        (resting .ready none .noop [.run]).core.constructed = true) ∧
      (resting .awaitingInput none .noop [.run]).AtRest ∧ (resting .terminated none .noop [.run]).AtRest ∧
      (resting .terminated none .fault [.run]).AtRest ∧
      (resting .faulted (some .runAfterTerminated) .fault [.run]).AtRest :=
  ⟨⟨fresh_atRest _, rfl, rfl⟩, ⟨resting_atRest _ _ _ _ (by decide), rfl, rfl⟩, resting_atRest _ _ _ _ (by decide),
    resting_atRest _ _ _ _ (by decide), resting_atRest _ _ _ _ (by decide), resting_atRest _ _ _ _ (by decide)⟩

/-- The other clauses of the same statement: `feed` and `freshOutput` on a terminated core, `select` at and past the last
core, and a command on a network's core. -/
theorem witness_RunCommandFollowsTheStatus_others :
    ((resting .terminated none .noop [.feed [5]]).AtRest ∧ (resting .terminated none .noop [.feed [5]]).orch = none ∧
        (resting .terminated none .noop [.feed [5]]).cmds = .feed [5] :: []) ∧
      ((resting .terminated none .noop [.freshOutput]).AtRest ∧
        (resting .terminated none .noop [.freshOutput]).cmds = .freshOutput :: []) ∧
      ((twoCores [.select 1]).AtRest ∧ (twoCores [.select 1]).orch = none ∧
        (twoCores [.select 1]).cores[1]? = some (VmCore.construct (words [99]))) ∧
      ((twoCores [.select 2]).AtRest ∧ (twoCores [.select 2]).cores.length ≤ 2) ∧
      ((network (orch 2 .loop .done false 0 []) 0 .terminated [] [.feed [5]]).AtRest ∧
        (network (orch 2 .loop .done false 0 []) 0 .terminated [] [.feed [5]]).orch ≠ none ∧
        (network (orch 2 .loop .done false 0 []) 0 .terminated [] [.feed [5]]).cmds = .feed [5] :: []) :=
  ⟨⟨resting_atRest _ _ _ _ (by decide), rfl, rfl⟩, ⟨resting_atRest _ _ _ _ (by decide), rfl⟩,
    ⟨⟨(by decide : Status.terminated ≠ .running), rfl, by rintro _ ⟨⟩⟩, rfl, rfl⟩,
    ⟨⟨(by decide : Status.terminated ≠ .running), rfl, by rintro _ ⟨⟩⟩, by decide⟩,
    ⟨network_atRest _ _ _ _ _ (by decide) (by decide), by decide, rfl⟩⟩

theorem witness_ParametersNeverChange : ∃ t, step State.reset = .next t := ⟨_, rfl⟩

/-- P4 of spec/95: the ADD writes the next instruction's word (`j = 0`). The same place is a good target of MUL, LT and EQ,
and one operand word further on (`j = 1`) is too; IN's next instruction stands at 2. -/
theorem witness_StoredWordIsTheNextFetched :
    (0 ≤ (running [1101, 100, 4, 4] [5]).core.ip.toInt ∧
      (running [1101, 100, 4, 4] [5]).core.readOperand none ⟨.immediate, 100⟩ = .ok 100 ∧
      (running [1101, 100, 4, 4] [5]).core.readOperand none ⟨.immediate, 4⟩ = .ok 4 ∧
      (running [1101, 100, 4, 4] [5]).core.TargetAt none ⟨.position, 4⟩
        ((running [1101, 100, 4, 4] [5]).core.ip.toInt + 4 + 0).toNat ∧
      (running [1101, 100, 4, 4] [5]).core.TargetAt none ⟨.position, 5⟩
        ((running [1101, 100, 4, 4] [5]).core.ip.toInt + 4 + 1).toNat ∧
      (running [1101, 100, 4, 4] [5]).core.ip.toInt + 4 ≤ addrMax ∧
      Fits64 ((100 : Word).toInt + (4 : Word).toInt) ∧ Fits64 ((100 : Word).toInt * (4 : Word).toInt)) ∧
    ((running [1101, 100, 4, 4] [5]).core.inq = 5 :: [] ∧
      (running [1101, 100, 4, 4] [5]).core.TargetAt none ⟨.position, 2⟩
        ((running [1101, 100, 4, 4] [5]).core.ip.toInt + 2 + 0).toNat ∧
      (running [1101, 100, 4, 4] [5]).core.ip.toInt + 2 ≤ addrMax) :=
  ⟨⟨by decide, rfl, rfl, ⟨rfl, valid_none (by decide)⟩, ⟨rfl, valid_none (by decide)⟩, by decide, by decide, by decide⟩,
    rfl, ⟨rfl, valid_none (by decide)⟩, by decide⟩

/-! ### Witnesses: reset and the invariant -/

theorem witness_EqualMemoriesAreEqualData :
    Memory.wf (Memory.ofImageFrom 0 (words [1, 0, 2])) ∧ Memory.wf [] :=
  ⟨Memory.ofImageFrom_wf _ _, Memory.ofImageFrom_wf 0 []⟩

theorem witness_ConstructLoadsTheImage :
    ((resting .ready none .noop [.construct (words [1, 0, 2])]).AtRest ∧
      (resting .ready none .noop [.construct (words [1, 0, 2])]).orch = none ∧
      (resting .ready none .noop [.construct (words [1, 0, 2])]).cmds = .construct (words [1, 0, 2]) :: [] ∧
      ((9223372036854775807 : Nat) : Int) ≤ addrMax) ∧
    ((network (orch 2 .loop .done false 0 []) 1 .terminated [] [.construct (words [99])]).AtRest ∧
      (network (orch 2 .loop .done false 0 []) 1 .terminated [] [.construct (words [99])]).orch ≠ none) :=
  ⟨⟨resting_atRest _ _ _ _ (by decide), rfl, rfl, by decide⟩,
    network_atRest _ _ _ _ _ (by decide) (by decide), by decide⟩

/-- A block with no network whose core is running satisfies the invariant. -/
theorem running_inv (image inq : List Int) : (running image inq).Inv :=
  inv_none (by simp [running, State.reset]) ⟨Memory.ofImageFrom_wf _ _, by simp [running], by simp [running]⟩
    (by simp [running, State.reset]) rfl rfl

theorem witness_StepKeepsTheInvariant : (running [99]).Inv ∧ ∃ t, step (running [99]) = .next t :=
  ⟨running_inv _ _, after (running [99]), rfl⟩

theorem witness_InvariantExcludesMachineFaults : (running [98]).Inv := running_inv _ _

/-! ### Witnesses: cores, network and search -/

theorem witness_CloneCopiesTheCore :
    ((fresh [.clone]).AtRest ∧ (fresh [.clone]).orch = none ∧ (fresh [.clone]).core.constructed = false) ∧
    ((resting .terminated none .noop [.clone]).AtRest ∧ (resting .terminated none .noop [.clone]).orch = none ∧
      (resting .terminated none .noop [.clone]).cmds = .clone :: [] ∧
      (resting .terminated none .noop [.clone]).core.constructed = true) :=
  ⟨⟨fresh_atRest _, rfl, rfl⟩, resting_atRest _ _ _ _ (by decide), rfl, rfl, rfl⟩

theorem witness_NetworkConstructMakesEqualCores :
    ((fresh [.constructNet (words [99]) .loop 2]).AtRest ∧
      (fresh [.constructNet (words [99]) .loop 2]).cmds = .constructNet (words [99]) .loop 2 :: []) ∧
    ((fresh [.constructNet (words [99]) .linear 0]).AtRest ∧
      (fresh [.constructNet (words [99]) .linear 0]).cmds = .constructNet (words [99]) .linear 0 :: []) :=
  ⟨⟨fresh_atRest _, rfl⟩, fresh_atRest _, rfl⟩

theorem witness_DriveRefusesBadConfigurations :
    ((network (orch 2 .loop .built false 0 []) 0 .ready [] [.drive (words [1])]).AtRest ∧ (words [1]).length ≠ 2) ∧
      ((network (orch 0 .loop .built false 0 []) 0 .ready [] [.drive []]).AtRest ∧
        (orch 0 .loop .built false 0 []).n < 1) ∧
      ((network (orch 2 .loop .done false 0 []) 0 .ready [] [.drive (words [1, 2])]).AtRest ∧
        (orch 2 .loop .done false 0 []).netstatus ≠ .built) :=
  ⟨⟨network_atRest _ _ _ _ _ (by decide) (by decide), by decide⟩,
    ⟨network_atRest _ _ _ _ _ (by decide) (by decide), by decide⟩,
    ⟨network_atRest _ _ _ _ _ (by decide) (by decide), by decide⟩⟩

theorem witness_DriveStartsWithTheInitialSignal :
    (network (orch 2 .loop .built false 0 []) 0 .ready [] [.drive (words [1, 2])]).AtRest ∧ (words [1, 2]).length = 2 ∧
      1 ≤ (orch 2 .loop .built false 0 []).n ∧ (orch 2 .loop .built false 0 []).netstatus = .built :=
  ⟨network_atRest _ _ _ _ _ (by decide) (by decide), by decide, by decide, rfl⟩

theorem witness_RunIsSeededWithPhaseOnceThenSignal :
    ((orch 2 .loop .driving false 0 []).netstatus = .driving ∧ (orch 2 .loop .driving false 0 []).signal = some 5 ∧
      (orch 2 .loop .driving false 0 []).phases[(network (orch 2 .loop .driving false 0 []) 1 .ready []).before.length]?
        = some 4 ∧
      (network (orch 2 .loop .driving false 0 []) 1 .ready []).core.status = .ready) ∧
    ((orch 2 .loop .driving false 1 []).pass ≠ 0 ∧
      (network (orch 2 .loop .driving false 1 []) 0 .awaitingInput []).core.status = .awaitingInput) ∧
    ((network (orch 2 .loop .driving false 1 []) 0 .terminated [7]).core.status = .terminated ∧
      (network (orch 2 .loop .driving false 1 []) 0 .terminated [7]).params.runOnTerminated = .noop) ∧
    (∃ s : State, s = { network (orch 2 .loop .driving false 1 []) 0 .terminated [7] with
        params := { runOnTerminated := .fault } } ∧ s.orch = some (orch 2 .loop .driving false 1 []) ∧
      s.core.status = .terminated ∧ s.params.runOnTerminated = .fault) ∧
    (network (orch 2 .loop .driving false 1 []) 0 .faulted []).core.status = .faulted :=
  ⟨by decide, by decide, by decide, ⟨_, rfl, rfl, rfl, rfl⟩, rfl⟩

/-- The network's run has returned, at core `i`. -/
theorem network_returned (o : Orch) (i : Nat) (status : Status) (outq : List Int) (e : ExitStatus)
    (h : o.netstatus = .driving) (h2 : o.waiting = true)
    (h3 : (network o i status outq).core.exitStatus = some e) : (network o i status outq).Returned o e :=
  ⟨rfl, h, h2, h3⟩

theorem witness_NewSignalIsTheLastOutput :
    ((network (orch 2 .loop .driving true 0 []) 0 .awaitingInput [8, 9]).Returned (orch 2 .loop .driving true 0 [])
        .awaitingInput ∧
      (network (orch 2 .loop .driving true 0 []) 0 .awaitingInput [8, 9]).core.outq = words [8] ++ [9] ∧
      (orch 2 .loop .driving true 0 []).signal.isSome) ∧
    ((network (orch 2 .loop .driving true 0 []) 0 .terminated []).Returned (orch 2 .loop .driving true 0 []) .terminated ∧
      (network (orch 2 .loop .driving true 0 []) 0 .terminated []).core.outq = [] ∧
      (network (orch 2 .loop .driving true 0 []) 0 .terminated []).params.noOutput = .fault) ∧
    { network (orch 2 .loop .driving true 0 []) 0 .terminated [] with params := { noOutput := .keep } }.Returned
      (orch 2 .loop .driving true 0 []) .terminated :=
  ⟨⟨network_returned _ _ _ _ _ rfl rfl rfl, rfl, rfl⟩, ⟨network_returned _ _ _ _ _ rfl rfl rfl, rfl, rfl⟩,
    rfl, rfl, rfl, rfl⟩

theorem witness_CoresRunInSerialOrder :
    (∃ t, step (network (orch 2 .loop .driving true 0 []) 0 .awaitingInput [8]) = .next t ∧
      t.before.length ≠ (network (orch 2 .loop .driving true 0 []) 0 .awaitingInput [8]).before.length) ∧
    (∃ t, step (network (orch 2 .loop .driving true 0 [.terminated]) 1 .awaitingInput [8]) = .next t ∧
      t.before.length ≠ (network (orch 2 .loop .driving true 0 [.terminated]) 1 .awaitingInput [8]).before.length) ∧
    ((network (orch 2 .linear .driving true 0 []) 0 .terminated [8]).Returned (orch 2 .linear .driving true 0 [])
        .terminated ∧
      (network (orch 2 .linear .driving true 0 []) 0 .terminated [8]).after = VmCore.construct [] :: [] ∧
      nextSignal .fault (some 5) (words [8]) = some 8) :=
  ⟨⟨after (network (orch 2 .loop .driving true 0 []) 0 .awaitingInput [8]), rfl, by decide⟩,
    ⟨after (network (orch 2 .loop .driving true 0 [.terminated]) 1 .awaitingInput [8]), rfl, by decide⟩,
    network_returned _ _ _ _ _ rfl rfl rfl, rfl, rfl⟩

theorem witness_LinearDriveEndsAfterOnePass :
    ((network (orch 2 .linear .driving true 0 [.terminated]) 1 .awaitingInput [8, 9]).Returned
        (orch 2 .linear .driving true 0 [.terminated]) .awaitingInput ∧
      (network (orch 2 .linear .driving true 0 [.terminated]) 1 .awaitingInput [8, 9]).after = [] ∧
      nextSignal .fault (some 5) (network (orch 2 .linear .driving true 0 [.terminated]) 1 .awaitingInput [8, 9]).core.outq
        = some 9) ∧
    nextSignal .keep (some 5) [] = some 5 :=
  ⟨⟨network_returned _ _ _ _ _ rfl rfl rfl, rfl, rfl⟩, rfl⟩

theorem witness_LoopDriveEndsWhenAllTerminated :
    ((network (orch 2 .loop .driving true 0 [.terminated]) 1 .terminated [9]).Returned
        (orch 2 .loop .driving true 0 [.terminated]) .terminated ∧
      (network (orch 2 .loop .driving true 0 [.terminated]) 1 .terminated [9]).after = [] ∧
      (∀ x ∈ (orch 2 .loop .driving true 0 [.terminated]).st, x = .terminated) ∧
      nextSignal .fault (some 5) (words [9]) = some 9) ∧
    ((network (orch 2 .loop .driving true 0 [.awaitingInput]) 1 .terminated [9]).Returned
        (orch 2 .loop .driving true 0 [.awaitingInput]) .terminated ∧
      ¬ ∀ x ∈ (orch 2 .loop .driving true 0 [.awaitingInput]).st, x = .terminated) ∧
    ((network (orch 2 .loop .driving true 0 []) 0 .terminated [9]).Returned (orch 2 .loop .driving true 0 [])
        .terminated ∧
      (network (orch 2 .loop .driving true 0 []) 0 .terminated [9]).after = VmCore.construct [] :: []) :=
  ⟨⟨network_returned _ _ _ _ _ rfl rfl rfl, rfl, by decide, rfl⟩, ⟨network_returned _ _ _ _ _ rfl rfl rfl, by decide⟩,
    network_returned _ _ _ _ _ rfl rfl rfl, rfl⟩

theorem witness_CoreFaultEndsTheDrive :
    (orch 2 .loop .driving true 0 []).netstatus = .driving ∧ (orch 2 .loop .driving true 0 []).waiting = true ∧
      (network (orch 2 .loop .driving true 0 []) 1 .faulted []).core.status = .faulted ∧
      (network (orch 2 .loop .driving true 0 []) 1 .faulted []).core.cause = some .runAfterTerminated := by decide

/-- A search in progress. -/
def searching (todo : List (List Word)) (best : Option Word) (trial : Bool) (reply : Option Reply) : State :=
  { State.reset with
    reply  := reply
    search := some { image := words [99], topology := .linear, todo := todo, best := best, trial := trial, homeBefore := [],
                     homeCore := VmCore.reset, homeAfter := [], homeOrch := none } }

theorem witness_SearchTriesEveryPermutation :
    ((resting .ready none .noop [.search (words [99]) .linear (words [0, 1, 2])]).AtRest ∧ (words [0, 1, 2]).Nodup) ∧
      ((resting .ready none .noop [.search (words [99]) .linear (words [1, 2, 1])]).AtRest ∧ ¬ (words [1, 2, 1]).Nodup) ∧
      ((searching [words [1, 2]] none false none).core.status ≠ .running ∧
        (searching [words [1, 2]] none false none).orch = none ∧
        (searching [words [1, 2]] none false none).search.map (fun q => (q.trial, q.todo)) =
          some (false, [words [1, 2]])) ∧
      ((searching [] (some 3) true (some (.signal 4))).search.map (fun q => q.trial) = some true ∧
        (searching [] (some 3) true (some (.signal 4))).reply = some (.signal 4)) ∧
      (∃ t, (network (orch 2 .loop .driving false 0 []) 0 .ready []).core.status ≠ .running ∧
        (orch 2 .loop .driving false 0 []).netstatus = .driving ∧
        step (network (orch 2 .loop .driving false 0 []) 0 .ready []) = .next t) ∧
      (∃ t, (running [99]).core.status = .running ∧ step (running [99]) = .next t) :=
  ⟨⟨resting_atRest _ _ _ _ (by decide), by decide⟩, ⟨resting_atRest _ _ _ _ (by decide), by decide⟩, by decide, by decide,
    ⟨_, by decide, rfl, rfl⟩, ⟨after (running [99]), rfl, rfl⟩⟩

theorem witness_TrialsStartOnFreshCores :
    ((searching [words [1, 2]] none false none).core.status ≠ .running ∧
      (searching [words [1, 2]] none false none).orch = none ∧
      (searching [words [1, 2]] none false none).search.isSome ∧ words [1, 2] ≠ []) ∧
    (searching [[]] none false none).search.map (fun q => (q.trial, q.todo)) = some (false, [[]]) := by decide

theorem witness_SearchKeepsTheLargestSignal :
    (searching [] (some 3) true (some (.signal 4))).core.status ≠ .running ∧
      (searching [] (some 3) true (some (.signal 4))).orch = none ∧
      (searching [] (some 3) true (some (.signal 4))).reply = some (.signal 4) ∧
      (searching [] none true (some (.fault .configError))).reply = some (.fault .configError) ∧
      (searching [] (some 3) false none).search.map (fun q => (q.trial, q.todo, q.best)) = some (false, [], some 3) := by
  decide

end Sys2Proof.Tests
end

section
/-! SUPPORT. Small rules the proofs of the scope family share: memory away from a written address, the shape the four
storing instructions have in common, and the parameters through every action of the block. -/

namespace Sys2Proof.Machine

open Sys2Proof

/-- A write leaves every other word (R51). -/
theorem Memory.read_write_of_ne (m : Memory) {a b : Nat} (v : Word) (h : b ≠ a) : (m.write a v).read b = m.read b := by
  rw [Memory.read_write, if_neg h]

/-- ADD, MUL, LT and EQ share one step (R55): when it goes on, it has written one word at the target's effective address
and moved `ip`. -/
theorem coreExec_storing_eq_ok {i : Instr} {a b d : Operand} {lim : Option Nat} {c c' : VmCore}
    (hi : i = .add a b d ∨ i = .mul a b d ∨ i = .lt a b d ∨ i = .eq a b d) (h : coreExec i lim c = .ok c') :
    ∃ (k : Nat) (r n : Word), effectiveAddress c.rb d = some (k : Int) ∧ c' = (c.writeMem k r).setIp n := by
  obtain ⟨op, f, h⟩ : ∃ op f, c.storeBinary lim op a b d f = .ok c' := by
    rcases hi with rfl | rfl | rfl | rfl <;> exact ⟨_, _, h⟩
  obtain ⟨_, _, k, r, n, _, _, hk, _, _, _, hc⟩ := VmCore.storeBinary_eq_ok h
  exact ⟨k, r, n, hk, hc⟩

/-- JT and JF share one step: when it goes on, it has moved `ip` and nothing else (R120, R121). -/
theorem VmCore.branch_eq_setIp {lim : Option Nat} {c c' : VmCore} {op : Opcode} {a b : Operand} {g : Word → Bool}
    (h : c.branch lim op a b g = .ok c') : ∃ n, c' = c.setIp n := by
  obtain ⟨_, y, _, _, ⟨_, hc⟩ | ⟨_, n, _, hc⟩⟩ := VmCore.branch_eq_ok h
  · exact ⟨y, hc⟩
  · exact ⟨n, hc⟩

/-! ### The parameters -/

/-- The answer `r` of an action taken in `s`, if it is a next state, has the parameters of `s`. -/
def State.ParamsKept (s : State) (r : StepResult) : Prop := ∀ t, r = .next t → t.params = s.params

@[simp] theorem State.paramsKept_next {s t : State} : s.ParamsKept (.next t) ↔ t.params = s.params :=
  ⟨fun h => h t rfl, fun h _ ht => Host.Outcome.next.inj ht ▸ h⟩

@[simp] theorem State.paramsKept_fault (s : State) (f : Fault) : s.ParamsKept (.fault f) :=
  fun _ h => (nomatch h)

@[simp] theorem State.paramsKept_refused (s : State) (r : Refusal) : s.ParamsKept (.refused r) :=
  fun _ h => (nomatch h)

theorem State.commit_paramsKept (s : State) (r : Except Cause VmCore) : s.ParamsKept (s.commit r) := by
  cases r <;> simp

theorem State.onOwnCore_paramsKept (s : State) {f : State → StepResult} (h : ∀ s, State.ParamsKept s (f s)) :
    s.ParamsKept (s.onOwnCore f) := by
  unfold State.onOwnCore
  split
  · exact s.paramsKept_refused _
  · exact h s

theorem State.onConstructed_paramsKept (s : State) {f : State → StepResult} (h : ∀ s, State.ParamsKept s (f s)) :
    s.ParamsKept (s.onConstructed f) := by
  refine s.onOwnCore_paramsKept fun s => ?_
  split
  · exact h s
  · exact s.paramsKept_refused _

theorem State.selectCore_paramsKept (s : State) (i : Nat) : s.ParamsKept (s.selectCore i) := by
  unfold State.selectCore
  split <;> simp

theorem State.startDrive_paramsKept (s : State) (phases : List Word) : s.ParamsKept (s.startDrive phases) := by
  unfold State.startDrive
  split
  · exact s.paramsKept_refused _
  · split <;> simp

theorem State.startSearch_paramsKept (s : State) (image : List Word) (topology : Topology) (phaseSet : List Word) :
    s.ParamsKept (s.startSearch image topology phaseSet) := by
  unfold State.startSearch
  split <;> simp

/-- No command of the host changes a parameter. -/
theorem State.command_paramsKept (s : State) (k : Cmd) : s.ParamsKept (s.command k) := by
  unfold State.command
  cases k with
  | construct image => cases s.orch <;> simp
  | feed vs => exact s.onOwnCore_paramsKept fun _ => State.paramsKept_next.mpr rfl
  | freshOutput => exact s.onOwnCore_paramsKept fun _ => State.paramsKept_next.mpr rfl
  | run => exact s.onConstructed_paramsKept fun _ => State.paramsKept_next.mpr rfl
  | clone => exact s.onConstructed_paramsKept fun _ => State.paramsKept_next.mpr rfl
  | select i => exact s.onOwnCore_paramsKept fun s => s.selectCore_paramsKept i
  | constructNet image topology n => exact State.paramsKept_next.mpr rfl
  | drive phases => exact s.startDrive_paramsKept phases
  | search image topology phaseSet => exact s.startSearch_paramsKept image topology phaseSet

theorem State.hostStep_paramsKept (s : State) : s.ParamsKept s.hostStep := by
  unfold State.hostStep
  split
  · simp
  · exact State.command_paramsKept _ _

/-- No action of the search changes a parameter: a trial's network stands under the block's own parameters. -/
theorem State.searchStep_paramsKept (s : State) (q : Search) : s.ParamsKept (s.searchStep q) := by
  unfold State.searchStep
  split
  · split <;> simp [State.endSearch]
  · split
    · exact State.paramsKept_next.mpr rfl
    · exact State.startDrive_paramsKept _ _

theorem State.takeReturn_paramsKept (s : State) (o : Orch) : s.ParamsKept (s.takeReturn o) := by
  unfold State.takeReturn
  split <;> simp [State.failDrive, State.afterRun_rest]

/-- No action of the orchestrator changes a parameter. -/
theorem State.orchStep_paramsKept (s : State) (o : Orch) : s.ParamsKept (s.orchStep o) := by
  unfold State.orchStep
  split
  · exact s.takeReturn_paramsKept o
  · exact State.paramsKept_next.mpr rfl

theorem State.searchOrHost_paramsKept (s : State) : s.ParamsKept s.searchOrHost := by
  unfold State.searchOrHost
  split
  · exact s.searchStep_paramsKept _
  · exact s.hostStep_paramsKept

theorem State.idleStep_paramsKept (s : State) : s.ParamsKept s.idleStep := by
  unfold State.idleStep
  split
  · split
    · exact s.orchStep_paramsKept _
    · exact s.searchOrHost_paramsKept
  · exact s.searchOrHost_paramsKept

/-- Neither a running core nor an action of the idle block changes a parameter. -/
theorem step_paramsKept (s : State) : s.ParamsKept (step s) := by
  by_cases hr : s.core.status = .running
  · rw [step_of_running hr, coreStep_eq_commit]
    exact s.commit_paramsKept _
  · rw [step_of_idle hr]
    exact s.idleStep_paramsKept

end Sys2Proof.Machine
end

section
/-! PROOFS. The scope family (`00_scope.md`): the frames of the instructions, the parameters, `CheckAddr` and the WORD of
an exact result. -/

namespace Sys2Proof.Machine

open Sys2Proof

/-- Settles O29: a storing instruction that goes on is one write at the target's effective address, then `ip`. -/
theorem storingInstructionsFrame : Obligations.StoringInstructionsFrame := by
  intro s t a b d i hi h hf
  obtain ⟨c, hc, rfl⟩ := exec_eq_next h hf
  obtain ⟨k, r, n, hk, rfl⟩ := coreExec_storing_eq_ok hi hc
  refine ⟨rfl, fun ea hea j hj => Memory.read_write_of_ne _ r ?_⟩
  have hke : (k : Int) = ea := Option.some.inj (hk.symm.trans hea)
  omega

/-- Settles O30: IN either suspends, which touches the status alone, or stores the head of the input at its target. -/
theorem inputFrame : Obligations.InputFrame := by
  intro s t d h hf
  obtain ⟨c, hc, rfl⟩ := exec_eq_next h hf
  obtain ⟨k, n, hk, _, _, ⟨hq, rfl⟩ | ⟨v, q, hq, rfl⟩⟩ := VmCore.input_eq_ok hc
  · exact ⟨rfl, fun hne => absurd hq hne, fun _ _ _ _ => rfl, fun _ _ => rfl⟩
  · refine ⟨rfl, fun _ => rfl, fun ea hea j hj => Memory.read_write_of_ne _ v ?_, fun he => by simp [hq] at he⟩
    have hke : (k : Int) = ea := Option.some.inj (hk.symm.trans hea)
    omega

/-- Settles O31: the inversion lemma of each instruction's step names the registers it sets, and memory is none of them. -/
theorem nonStoringInstructionsFrame : Obligations.NonStoringInstructionsFrame := by
  intro s t a b hf
  refine ⟨fun h => ?out, fun h => ?jump, fun h => ?arb, fun h => ?halt⟩
  case out =>
    obtain ⟨c, hc, rfl⟩ := exec_eq_next h hf
    obtain ⟨x, n, _, _, rfl⟩ := VmCore.output_eq_ok hc
    exact ⟨rfl, fun _ => rfl⟩
  case jump =>
    obtain ⟨n, rfl⟩ : ∃ n, t = s.withCore (s.core.setIp n) := by
      rcases h with h | h <;>
      · obtain ⟨c, hc, rfl⟩ := exec_eq_next h hf
        obtain ⟨n, rfl⟩ := VmCore.branch_eq_setIp hc
        exact ⟨n, rfl⟩
    exact ⟨rfl, fun _ => rfl⟩
  case arb =>
    obtain ⟨c, hc, rfl⟩ := exec_eq_next h hf
    obtain ⟨x, r, n, _, _, _, rfl⟩ := VmCore.adjustBase_eq_ok hc
    exact ⟨rfl, fun _ => rfl⟩
  case halt =>
    obtain ⟨c, hc, rfl⟩ := exec_eq_next h hf
    cases hc
    exact ⟨rfl, fun _ => rfl⟩

/-- Settles O41: every action a step can take keeps the parameters (`step_paramsKept`). -/
theorem parametersNeverChange : Obligations.ParametersNeverChange := step_paramsKept

/-- Settles O13: above `ADDR_MAX` and at or above the limit an address is not valid, which `checkAddr_capacity` reports. -/
theorem checkAddrRaisesByRange : Obligations.CheckAddrRaisesByRange := by
  intro lim a
  refine ⟨checkAddr_negative, fun h => checkAddr_capacity ?_ ?_, fun n hn h0 hna => checkAddr_capacity h0 ?_,
    fun h0 hmax hlim => checkAddr_of_valid ⟨h0, hmax, hlim⟩⟩
  · exact le_trans (by decide) h.le
  · rintro ⟨_, hmax, _⟩
    exact absurd h (not_lt.mpr hmax)
  · rintro ⟨_, _, hlim⟩
    exact absurd (hlim n hn) (not_lt.mpr hna)

/-- Settles O17: `wordOf_toInt`, whose range premise is exactly `Fits64`. -/
theorem wordOfAnExactResultHasItsValue : Obligations.WordOfAnExactResultHasItsValue := fun _ h => wordOf_toInt h

end Sys2Proof.Machine
end

section
/-! SUPPORT. Rules the proofs of the state family share: memory as the set of its entries, what one step of a running
core can do to `rb`, the input and the output, and `run`'s entry by status. -/

namespace Sys2Proof.Machine

open Sys2Proof

/-! ### Memory as data -/

/-- Every entry of a memory in rising order is the one its address reads. -/
theorem Memory.read_of_mem {m : Memory} (hm : m.Pairwise (fun x y => x.1 < y.1)) {e : Nat × Word} (he : e ∈ m) :
    m.read e.1 = e.2 := by
  induction m with
  | nil => simp at he
  | cons x m ih =>
    obtain ⟨hx, ht⟩ := List.pairwise_cons.mp hm
    rcases List.mem_cons.mp he with rfl | he
    · rw [Memory.read_cons, if_pos rfl]
    · rw [Memory.read_cons, if_neg (hx e he).ne, ih ht he]

/-- An address that reads a WORD other than 0 is listed with it (R42). -/
theorem Memory.mem_of_read_ne_zero {m : Memory} {a : Nat} (h : m.read a ≠ 0) : (a, m.read a) ∈ m := by
  induction m with
  | nil => simp at h
  | cons x m ih =>
    obtain ⟨k, w⟩ := x
    rw [Memory.read_cons] at h ⊢
    split
    · rename_i hk
      exact hk ▸ List.mem_cons_self
    · rename_i hk
      rw [if_neg hk] at h
      exact List.mem_cons_of_mem _ (ih h)

/-- The canonical form lists exactly the WORDs that are not 0. -/
theorem Memory.mem_iff_read {m : Memory} (hm : m.wf) (e : Nat × Word) : e ∈ m ↔ m.read e.1 = e.2 ∧ e.2 ≠ 0 := by
  obtain ⟨hs, hz, _⟩ := hm
  refine ⟨fun he => ⟨Memory.read_of_mem hs he, hz e he⟩, fun ⟨hr, hne⟩ => ?_⟩
  have hmem := Memory.mem_of_read_ne_zero (hr ▸ hne)
  rwa [hr] at hmem

theorem Memory.wf.nodup {m : Memory} (hm : m.wf) : m.Nodup :=
  hm.1.imp fun hlt heq => hlt.ne (congrArg Prod.fst heq)

/-! ### One step of a running core -/

/-- A step of a running core that takes no fault: the instruction fetched went on. -/
theorem step_running_of_not_faulted {s t : State} (hr : s.core.status = .running) (h : step s = .next t)
    (hf : t.core.status ≠ .faulted) :
    ∃ i c, s.core.fetch s.params.memLimit = .ok i ∧ coreExec i s.params.memLimit s.core = .ok c ∧ t = s.withCore c := by
  rcases step_running_eq_next hr h with hok | ⟨f, rfl⟩
  · exact hok
  · exact absurd rfl hf

/-- A fault of the fetch stages is what the step of a running core reports (R88, R89). -/
theorem step_reports_of_fetch_error {s : State} {f : Cause} (hr : s.core.status = .running)
    (h : s.core.fetch s.params.memLimit = .error f) : Reports (step s) s f := by
  rw [step_of_running hr, coreStep_eq_commit, h]
  exact Reports.of_error s f

/-- `CheckAddr(ip)` is the first stage of the fetch (R80). -/
theorem VmCore.fetch_of_checkAddr_error {lim : Option Nat} {c : VmCore} {f : Cause}
    (h : checkAddr lim c.ip.toInt = .error f) : c.fetch lim = .error f := by
  simp [VmCore.fetch, VmCore.fetchWord, h]

/-- ARB alone sets `rb` (R141). -/
theorem coreExec_rb {i : Instr} {lim : Option Nat} {c c' : VmCore} (h : coreExec i lim c = .ok c') :
    c'.rb = c.rb ∨ ∃ a, i = .arb a := by
  rcases coreExec_eq_ok h with ⟨_, _, _, _, rfl⟩ | ⟨_, _, _, _, _, _, _, _, _, rfl⟩ | ⟨_, _, _, rfl⟩ |
    ⟨_, _, _, _, _, rfl⟩ | ⟨_, rfl⟩ | ⟨a, _, _, hi, _⟩ | ⟨_, rfl⟩
  case inr.inr.inr.inr.inr.inl => exact .inr ⟨a, hi⟩
  all_goals exact .inl rfl

/-- IN alone takes input: its head, which it stores at its target (R112). -/
theorem coreExec_inq {i : Instr} {lim : Option Nat} {c c' : VmCore} (h : coreExec i lim c = .ok c') :
    c'.inq = c.inq ∨
      ∃ d v k, i = .inp d ∧ c.inq = v :: c'.inq ∧ c.TargetAt lim d k ∧ c'.mem.read k = v := by
  rcases coreExec_eq_ok h with ⟨_, _, _, _, rfl⟩ | ⟨d, k, v, q, n, hi, hd, hk, hq, rfl⟩ | ⟨_, _, _, rfl⟩ |
    ⟨_, _, _, _, _, rfl⟩ | ⟨_, rfl⟩ | ⟨_, _, _, _, rfl⟩ | ⟨_, rfl⟩
  case inr.inl => exact .inr ⟨d, v, k, hi, hq, ⟨hd, (checkAddr_eq_ok.mp hk).1⟩, by simp⟩
  all_goals exact .inl rfl

/-- OUT alone adds to the output: its operand's value, at the end (R113). -/
theorem coreExec_outq {i : Instr} {lim : Option Nat} {c c' : VmCore} (h : coreExec i lim c = .ok c') :
    c'.outq = c.outq ∨ ∃ a v, i = .out a ∧ c.readOperand lim a = .ok v ∧ c'.outq = c.outq ++ [v] := by
  rcases coreExec_eq_ok h with ⟨_, _, _, _, rfl⟩ | ⟨_, _, _, _, _, _, _, _, _, rfl⟩ | ⟨_, _, _, rfl⟩ |
    ⟨a, x, _, hi, ha, rfl⟩ | ⟨_, rfl⟩ | ⟨_, _, _, _, rfl⟩ | ⟨_, rfl⟩
  case inr.inr.inr.inl => exact .inr ⟨a, x, hi, ha, rfl⟩
  all_goals exact .inl rfl

theorem VmCore.Alike.refl (c : VmCore) : c.Alike c := ⟨rfl, rfl, rfl, fun _ => rfl⟩

/-- What is committed stands in the selected core alone, and two blocks with the same selected core get the same one. -/
theorem State.commit_of_core_eq {s s' : State} (h : s.core = s'.core) (r : Except Cause VmCore) :
    ∃ c, s.commit r = .next (s.withCore c) ∧ s'.commit r = .next (s'.withCore c) := by
  cases r with
  | ok c => exact ⟨c, rfl, rfl⟩
  | error f => exact ⟨s.core.takeFault f, rfl, h ▸ rfl⟩

/-! ### `run`'s entry and the host's own cores -/

/-- A run starts or is resumed (R89, R91). -/
theorem VmCore.startRun_of_ready_or_awaiting {c : VmCore} (p : RunOnTerminated)
    (h : c.status = .ready ∨ c.status = .awaitingInput) : c.startRun p = c.setStatus .running := by
  rcases h with h | h <;> simp [VmCore.startRun, h]

theorem VmCore.startRun_of_faulted {c : VmCore} (p : RunOnTerminated) (h : c.status = .faulted) : c.startRun p = c := by
  simp [VmCore.startRun, h]

theorem VmCore.startRun_noop_of_terminated {c : VmCore} (h : c.status = .terminated) : c.startRun .noop = c := by
  simp [VmCore.startRun, h]

theorem VmCore.startRun_fault_of_terminated {c : VmCore} (h : c.status = .terminated) :
    c.startRun .fault = c.takeFault .runAfterTerminated := by
  simp [VmCore.startRun, h]

/-- The host's `run` on a core of its own that it has not constructed (R224). -/
theorem State.command_run_of_not_constructed {s : State} (ho : s.orch = none) (hm : s.core.constructed = false) :
    s.command .run = .refused .neverConstructed :=
  State.onConstructed_of_not_constructed ho hm _

/-- The host's `run` on a constructed core of its own is `run`'s entry on that core. -/
theorem State.command_run_of_constructed {s : State} (ho : s.orch = none) (hm : s.core.constructed = true) :
    s.command .run = .next (s.withCore (s.core.startRun s.params.runOnTerminated)) :=
  State.onConstructed_of_constructed ho hm _

theorem State.command_clone_of_not_constructed {s : State} (ho : s.orch = none) (hm : s.core.constructed = false) :
    s.command .clone = .refused .neverConstructed :=
  State.onConstructed_of_not_constructed ho hm _

theorem State.command_clone_of_constructed {s : State} (ho : s.orch = none) (hm : s.core.constructed = true) :
    s.command .clone = .next { s with after := s.after ++ [s.core.clone] } :=
  State.onConstructed_of_constructed ho hm _

theorem State.command_feed_of_own {s : State} (ho : s.orch = none) (vs : List Word) :
    s.command (.feed vs) = .next (s.withCore (s.core.setInq (s.core.inq ++ vs))) := by
  simp [State.command, State.onOwnCore, ho]

theorem State.command_freshOutput_of_own {s : State} (ho : s.orch = none) :
    s.command .freshOutput = .next (s.withCore { s.core with outq := [] }) := by
  simp [State.command, State.onOwnCore, ho]

theorem State.command_select_of_some {s : State} {i : Nat} {c : VmCore} (ho : s.orch = none)
    (hc : s.cores[i]? = some c) :
    s.command (.select i) = .next { s with before := s.cores.take i, core := c, after := s.cores.drop (i + 1) } := by
  simp [State.command, State.onOwnCore, State.selectCore, ho, hc]

theorem State.command_select_of_length_le {s : State} {i : Nat} (ho : s.orch = none) (hi : s.cores.length ≤ i) :
    s.command (.select i) = .refused .noSuchCore := by
  simp [State.command, State.onOwnCore, State.selectCore, ho, hi]

/-- A network's cores take none of the commands for the host's own cores (R178). -/
theorem State.command_of_network {s : State} {k : Cmd} (ho : s.orch ≠ none)
    (hk : k = .run ∨ (∃ vs, k = .feed vs) ∨ k = .freshOutput ∨ ∃ i, k = .select i) :
    s.command k = .refused .coreBelongsToNetwork := by
  obtain ⟨o, ho⟩ := Option.ne_none_iff_exists'.mp ho
  rcases hk with rfl | ⟨vs, rfl⟩ | rfl | ⟨i, rfl⟩ <;>
    simp [State.command, State.onConstructed, State.onOwnCore, ho]

end Sys2Proof.Machine
end

section
/-! SUPPORT. The invariant through every action of the block, and the stops it rules out. -/

namespace Sys2Proof.Machine

open Sys2Proof

/-- While no core runs, a step is the driving orchestrator's, or the search's, or the host's (R9). -/
theorem step_idle_cases {s : State} (hr : s.core.status ≠ .running) :
    (∃ o, s.orch = some o ∧ o.netstatus = .driving ∧ step s = s.orchStep o) ∨
    ((∀ o, s.orch = some o → o.netstatus ≠ .driving) ∧
      ((∃ q, s.search = some q ∧ step s = s.searchStep q) ∨ (s.search = none ∧ step s = s.hostStep))) := by
  by_cases hd : ∃ o, s.orch = some o ∧ o.netstatus = .driving
  · obtain ⟨o, ho, hd⟩ := hd
    exact .inl ⟨o, ho, hd, step_of_driving hr ho hd⟩
  · have hnd : ∀ o, s.orch = some o → o.netstatus ≠ .driving := fun o ho h => hd ⟨o, ho, h⟩
    refine .inr ⟨hnd, ?_⟩
    cases hq : s.search with
    | some q => exact .inl ⟨q, rfl, step_of_search hr hnd hq⟩
    | none => exact .inr ⟨rfl, step_of_rest ⟨hr, hq, hnd⟩⟩

/-- A running core's step keeps the invariant. -/
theorem step_running_inv {s t : State} (hi : s.Inv) (hr : s.core.status = .running) (h : step s = .next t) : t.Inv := by
  obtain ⟨c, rfl, hs, hn, hm⟩ := step_running_sound hi hr h
  exact ⟨hi.before, hs, hi.after, fun o ho => (hi.orch o ho).withCore hn hm, hi.search⟩

/-- The run that the orchestrator waits for has returned, and taking its return keeps the invariant. -/
theorem takeReturn_inv {s : State} {o : Orch} (hi : s.Inv) (hr : s.core.status ≠ .running) (ho : s.orch = some o)
    (hd : o.netstatus = .driving) (hw : o.waiting = true) : ∃ t, s.takeReturn o = .next t ∧ t.Inv := by
  have hf := hi.orch o ho
  obtain ⟨_, hcause, _⟩ := hi.core
  unfold State.takeReturn
  cases hs : s.core.status with
  | ready => exact absurd hs (hf.issued hd hw)
  | running => exact absurd hs hr
  | awaitingInput => exact ⟨_, rfl, afterRun_inv _ hi hr ho hd⟩
  | terminated => exact ⟨_, rfl, afterRun_inv _ hi hr ho hd⟩
  | faulted =>
    obtain ⟨f, hc⟩ := Option.isSome_iff_exists.mp (hcause.mpr hs)
    rw [hc]
    exact ⟨_, rfl, failDrive_inv hi hf.count hf.made⟩

/-- The driving orchestrator always has a next state, and it satisfies the invariant. -/
theorem orchStep_inv {s : State} {o : Orch} (hi : s.Inv) (hr : s.core.status ≠ .running) (ho : s.orch = some o)
    (hd : o.netstatus = .driving) : ∃ t, s.orchStep o = .next t ∧ t.Inv := by
  unfold State.orchStep
  split
  · exact takeReturn_inv hi hr ho hd ‹_›
  · exact ⟨_, rfl, issueRun_inv hi ho hd⟩

/-! ### The stops -/

theorem State.startDrive_ne_fault (s : State) (p : List Word) (f : Fault) : s.startDrive p ≠ .fault f := by
  unfold State.startDrive
  split
  · simp
  · split <;> simp

theorem State.onOwnCore_ne_fault (s : State) {g : State → StepResult} {f : Fault} (h : ∀ s, g s ≠ .fault f) :
    s.onOwnCore g ≠ .fault f := by
  unfold State.onOwnCore
  split
  · simp
  · exact h s

theorem State.onConstructed_ne_fault (s : State) {g : State → StepResult} {f : Fault} (h : ∀ s, g s ≠ .fault f) :
    s.onConstructed g ≠ .fault f := by
  refine s.onOwnCore_ne_fault fun s => ?_
  split
  · exact h s
  · simp

theorem State.selectCore_ne_fault (s : State) (i : Nat) (f : Fault) : s.selectCore i ≠ .fault f := by
  unfold State.selectCore
  split <;> simp

theorem State.startSearch_ne_fault (s : State) (image : List Word) (topology : Topology) (phaseSet : List Word)
    (f : Fault) : s.startSearch image topology phaseSet ≠ .fault f := by
  unfold State.startSearch
  split <;> simp

/-- A command of the host goes on or is refused. -/
theorem State.command_ne_fault (s : State) (k : Cmd) (f : Fault) : s.command k ≠ .fault f := by
  unfold State.command
  cases k with
  | construct image => cases s.orch <;> simp
  | feed vs => exact s.onOwnCore_ne_fault (by simp)
  | freshOutput => exact s.onOwnCore_ne_fault (by simp)
  | run => exact s.onConstructed_ne_fault (by simp)
  | clone => exact s.onConstructed_ne_fault (by simp)
  | select i => exact s.onOwnCore_ne_fault fun s => s.selectCore_ne_fault i f
  | constructNet image topology n => simp
  | drive phases => exact s.startDrive_ne_fault phases f
  | search image topology phaseSet => exact s.startSearch_ne_fault image topology phaseSet f

theorem State.hostStep_ne_fault (s : State) (f : Fault) : s.hostStep ≠ .fault f := by
  unfold State.hostStep
  split
  · simp
  · exact State.command_ne_fault _ _ f

/-- A trial that was issued and is no longer driven has its reply (R174), so the search goes on. -/
theorem searchStep_ne_fault {s : State} {q : Search} (hq : q.Fits s.orch s.reply)
    (hnd : ∀ o, s.orch = some o → o.netstatus ≠ .driving) (f : Fault) : s.searchStep q ≠ .fault f := by
  unfold State.searchStep
  split
  · rename_i ht
    have hreply : s.reply.isSome := (hq.trial ht).resolve_right fun ⟨o, ho, hd⟩ => hnd o ho hd
    split
    · simp
    · simp
    · rename_i hnone
      simp [hnone] at hreply
  · split
    · simp
    · exact State.startDrive_ne_fault _ _ f

end Sys2Proof.Machine
end

section
/-! PROOFS. The state family (`10_state.md`): the invariant of the block, what an instruction sees and changes of the
state, memory as data, and the host's commands on its own cores. -/

namespace Sys2Proof.Machine

open Sys2Proof

/-- Settles O46: the running core, the orchestrator, the search and the host, each of which keeps the invariant. -/
theorem stepKeepsTheInvariant : Obligations.StepKeepsTheInvariant := by
  intro s t hi h
  by_cases hr : s.core.status = .running
  · exact step_running_inv hi hr h
  · rcases step_idle_cases hr with ⟨o, ho, hd, hs⟩ | ⟨hnd, ⟨q, hq, hs⟩ | ⟨hq, hs⟩⟩ <;> rw [hs] at h
    · obtain ⟨u, hu, hinv⟩ := orchStep_inv hi hr ho hd
      exact Host.Outcome.next.inj (hu.symm.trans h) ▸ hinv
    · exact searchStep_inv hi hq h
    · exact hostStep_inv hi hr hnd hq h

/-- Settles O47: a running core and a driving orchestrator always have a next state, a search in agreement with its
trial never lacks a reply, and the host's commands never fault. -/
theorem invariantExcludesMachineFaults : Obligations.InvariantExcludesMachineFaults := by
  intro s f hi
  by_cases hr : s.core.status = .running
  · obtain ⟨c, hc⟩ := step_running_next hr
    simp [hc]
  · rcases step_idle_cases hr with ⟨o, ho, hd, hs⟩ | ⟨hnd, ⟨q, hq, hs⟩ | ⟨_, hs⟩⟩ <;> rw [hs]
    · obtain ⟨u, hu, _⟩ := orchStep_inv hi hr ho hd
      simp [hu]
    · exact searchStep_ne_fault (hi.search q hq) hnd f
    · exact s.hostStep_ne_fault f

/-- Settles O32: both blocks commit the one result of `coreExec`, which is a function of the core and `MEM_LIMIT`. -/
theorem execSeesOnlyItsOwnCore : Obligations.ExecSeesOnlyItsOwnCore := by
  intro i s s' hc hl
  obtain ⟨c, h, h'⟩ := State.commit_of_core_eq hc (coreExec i s.params.memLimit s.core)
  refine ⟨c, c, (exec_eq_commit i s).trans h, ?_, VmCore.Alike.refl c⟩
  rw [exec_eq_commit, ← hc, ← hl, h']

/-- Settles O34 by `coreExec_rb`. -/
theorem onlyArbChangesTheBase : Obligations.OnlyArbChangesTheBase := by
  intro s t hr h hf hne
  obtain ⟨i, c, hi, hc, rfl⟩ := step_running_of_not_faulted hr h hf
  obtain ⟨a, rfl⟩ := (coreExec_rb hc).resolve_left hne
  exact ⟨a, hi⟩

/-- Settles O35: by `coreExec_inq` where the instruction goes on; a fault takes no input (R200). -/
theorem inputsAreTakenInOrder : Obligations.InputsAreTakenInOrder := by
  intro s t hr h
  rcases step_running_eq_next hr h with ⟨i, c, hi, hc, rfl⟩ | ⟨f, rfl⟩
  · refine (coreExec_inq hc).imp_right ?_
    rintro ⟨d, v, k, rfl, hrest⟩
    exact ⟨d, v, k, hi, hrest⟩
  · exact .inl rfl

/-- Settles O36 by `coreExec_outq`. -/
theorem outputsAreAppendedInOrder : Obligations.OutputsAreAppendedInOrder := by
  intro s t hr h hf
  obtain ⟨i, c, hi, hc, rfl⟩ := step_running_of_not_faulted hr h hf
  refine (coreExec_outq hc).imp_right ?_
  rintro ⟨a, v, rfl, hrest⟩
  exact ⟨a, v, hi, hrest⟩

/-- Settles O43: the reads determine the entries (`Memory.mem_iff_read`), and the rising order their places. -/
theorem equalMemoriesAreEqualData : Obligations.EqualMemoriesAreEqualData := by
  intro m m' hm hm' hread
  have hmem : ∀ e, e ∈ m ↔ e ∈ m' := fun e => by
    rw [Memory.mem_iff_read hm, Memory.mem_iff_read hm', hread]
  have hperm : m.Perm m' := (List.perm_ext_iff_of_nodup (Memory.wf.nodup hm) (Memory.wf.nodup hm')).mpr hmem
  exact hperm.eq_of_pairwise (fun _ _ _ _ hlt hgt => absurd hlt hgt.asymm) hm.1 hm'.1

/-- Settles O10: `CheckAddr(ip)` raises the fault, at the first stage of the fetch. -/
theorem fetchOutsideTheCapacityFaults : Obligations.FetchOutsideTheCapacityFaults := by
  intro s hr
  refine ⟨fun hneg => ?_, fun n hn hle => ?_⟩
  · exact step_reports_of_fetch_error hr (VmCore.fetch_of_checkAddr_error (checkAddr_negative hneg))
  · have hbad : ¬ ValidAddr s.params.memLimit s.core.ip.toInt := fun ⟨_, _, hlim⟩ => not_lt.mpr hle (hlim n hn)
    have h0 : 0 ≤ s.core.ip.toInt := (Int.natCast_nonneg n).trans hle
    exact step_reports_of_fetch_error hr (VmCore.fetch_of_checkAddr_error (checkAddr_capacity h0 hbad))

/-- Settles O40: at rest the step is the command; `run` on a constructed core is `run`'s entry, status by status. -/
theorem runCommandFollowsTheStatus : Obligations.RunCommandFollowsTheStatus := by
  intro s k ks hrest hk
  rw [step_of_command hrest hk]
  refine ⟨fun ho => ⟨?neverConstructed, ?run, ?feed, ?freshOutput, ?select, ?noSuchCore⟩, fun ho => ?network⟩
  case neverConstructed =>
    rintro rfl hm
    exact State.command_run_of_not_constructed ho hm
  case run =>
    rintro rfl hm
    rw [State.command_run_of_constructed (s := { s with cmds := ks }) ho hm]
    refine ⟨fun hs => ?_, fun hs hp => ?_, fun hs hp => ?_, fun hs => ?_⟩
    · rw [VmCore.startRun_of_ready_or_awaiting _ hs]
      rfl
    · rw [hp, VmCore.startRun_noop_of_terminated hs]
      rfl
    · rw [hp, VmCore.startRun_fault_of_terminated hs]
      exact ⟨_, rfl, rfl, rfl⟩
    · rw [VmCore.startRun_of_faulted _ hs]
      rfl
  case feed =>
    rintro vs rfl
    exact State.command_feed_of_own (s := { s with cmds := ks }) ho vs
  case freshOutput =>
    rintro rfl
    exact State.command_freshOutput_of_own ho
  case select =>
    rintro i c rfl hc
    exact State.command_select_of_some ho hc
  case noSuchCore =>
    rintro i rfl hlen
    exact State.command_select_of_length_le ho hlen
  case network =>
    exact State.command_of_network ho

/-- Settles O48: at rest the step is the command, and the clone differs from the selected core in its channels only. -/
theorem cloneCopiesTheCore : Obligations.CloneCopiesTheCore := by
  intro s ks hrest ho hk
  rw [step_of_command hrest hk]
  refine ⟨fun hm => State.command_clone_of_not_constructed ho hm, fun hm => ?_⟩
  exact ⟨s.core.clone, State.command_clone_of_constructed ho hm, rfl, rfl, rfl, rfl, rfl, hm⟩

end Sys2Proof.Machine
end

section
/-! SUPPORT. Rules the proofs of the memory family share: the fetch that follows a store into the next instruction, and
what the host's `construct` leaves. -/

namespace Sys2Proof.Machine

open Sys2Proof

/-- ADD, MUL, LT and EQ share one step (R55): with good operands and a target `j` words into the instruction that follows,
it goes on, and the next fetch of word `j` reads the result (R51, R54). -/
theorem VmCore.storeBinary_fetchWord {lim : Option Nat} {c : VmCore} {op : Opcode} {a b d : Operand} {x y r : Word}
    {j : Nat} {f : Word → Word → Except Cause Word} (h0 : 0 ≤ c.ip.toInt) (ha : c.readOperand lim a = .ok x)
    (hb : c.readOperand lim b = .ok y) (hd : c.TargetAt lim d (c.ip.toInt + op.len + j).toNat)
    (hi : c.ip.toInt + op.len ≤ addrMax) (hf : f x y = .ok r) :
    ∃ c', c.storeBinary lim op a b d f = .ok c' ∧ c'.fetchWord lim j = .ok r := by
  refine ⟨_, ?_, VmCore.fetchWord_of_stored r h0 hd.2 hi⟩
  rw [VmCore.storeBinary_of_operands ha hb hd, hf, VmCore.advance_of_le hi]
  rfl

/-- The IN step with input at hand and a good target: it stores the head of the input and advances (R110). -/
theorem VmCore.input_of_cons {lim : Option Nat} {c : VmCore} {d : Operand} {k : Nat} {v : Word} {q : List Word}
    (hq : c.inq = v :: q) (hd : c.TargetAt lim d k) (hi : c.ip.toInt + Opcode.inp.len ≤ addrMax) :
    c.input lim d = .ok (((c.setInq q).writeMem k v).setIp (wordOf (c.ip.toInt + Opcode.inp.len))) := by
  obtain ⟨htarget, hcheck⟩ := hd.checks ⟨.inp, d.mode, .position, .position⟩ 0
  simp [VmCore.input, htarget, hcheck, VmCore.advance_of_le hi, hq]

/-- IN with a target `j` words into the instruction that follows: the next fetch of word `j` reads the input taken. -/
theorem VmCore.input_fetchWord {lim : Option Nat} {c : VmCore} {d : Operand} {j : Nat} {v : Word} {q : List Word}
    (h0 : 0 ≤ c.ip.toInt) (hq : c.inq = v :: q) (hd : c.TargetAt lim d (c.ip.toInt + Opcode.inp.len + j).toNat)
    (hi : c.ip.toInt + Opcode.inp.len ≤ addrMax) :
    ∃ c', c.input lim d = .ok c' ∧ c'.fetchWord lim j = .ok v :=
  ⟨_, VmCore.input_of_cons hq hd hi, VmCore.fetchWord_of_stored (c := c.setInq q) v h0 hd.2 hi⟩

/-- What the next fetch reads on the core an instruction leaves, it reads in the block that follows. -/
theorem exec_fetchWord_of_coreExec {i : Instr} {s : State} {j : Nat} {w : Word}
    (h : ∃ c, coreExec i s.params.memLimit s.core = .ok c ∧ c.fetchWord s.params.memLimit j = .ok w) :
    ∃ t, exec i s = .next t ∧ t.core.fetchWord t.params.memLimit j = .ok w := by
  obtain ⟨c, hc, hw⟩ := h
  exact ⟨s.withCore c, by rw [exec_eq_commit, hc, State.commit_ok], hw⟩

/-- LT's result word (R130). -/
theorem truthWord_lt (x y : Word) : truthWord (decide (x.toInt < y.toInt)) = if x.toInt < y.toInt then 1 else 0 := by
  simp [truthWord]

/-- EQ's result word: two WORDs are equal exactly when their values are (R10, R131). -/
theorem truthWord_eq (x y : Word) : truthWord (decide (x = y)) = if x.toInt = y.toInt then 1 else 0 := by
  simp [truthWord, BitVec.toInt_inj]

/-- The host's `construct` on a core of its own puts a new core in its place, with the same channels (R30, R223). -/
theorem State.command_construct_of_own {s : State} (ho : s.orch = none) (image : List Word) :
    s.command (.construct image) = .next (s.withCore (s.core.reconstruct image)) := by
  simp [State.command, ho]

/-- The host's `construct` on a network leaves the new core alone (the model's choice, logs 11 and 16). -/
theorem State.command_construct_of_network {s : State} (ho : s.orch ≠ none) (image : List Word) :
    s.command (.construct image) =
      .next { s with before := [], core := VmCore.construct image, after := [], orch := none, reply := none } := by
  obtain ⟨o, ho⟩ := Option.ne_none_iff_exists'.mp ho
  simp [State.command, ho]

end Sys2Proof.Machine
end

section
/-! PROOFS. The memory family (`20_memory.md`): a word stored in the next instruction is the word fetched there, and
memory after `construct`. -/

namespace Sys2Proof.Machine

open Sys2Proof

/-- Settles O42: each storing instruction writes its result at the target and moves `ip` to the instruction that follows,
so the fetch of word `j` there reads back that one write. -/
theorem storedWordIsTheNextFetched : Obligations.StoredWordIsTheNextFetched := by
  intro s d j h0
  refine ⟨fun a b x y ha hb hd hi => ⟨fun hfit => ?add, fun hfit => ?mul, ?lt, ?eq⟩, fun v q hq hd hi => ?inp⟩
  case add =>
    obtain ⟨t, ht, hw⟩ := exec_fetchWord_of_coreExec (i := .add a b d)
      (VmCore.storeBinary_fetchWord h0 ha hb hd hi (exactResult_of_fits hfit))
    exact ⟨t, ht, _, hw, wordOf_toInt hfit⟩
  case mul =>
    obtain ⟨t, ht, hw⟩ := exec_fetchWord_of_coreExec (i := .mul a b d)
      (VmCore.storeBinary_fetchWord h0 ha hb hd hi (exactResult_of_fits hfit))
    exact ⟨t, ht, _, hw, wordOf_toInt hfit⟩
  case lt =>
    rw [← truthWord_lt]
    exact exec_fetchWord_of_coreExec (VmCore.storeBinary_fetchWord h0 ha hb hd hi rfl)
  case eq =>
    rw [← truthWord_eq]
    exact exec_fetchWord_of_coreExec (VmCore.storeBinary_fetchWord h0 ha hb hd hi rfl)
  case inp => exact exec_fetchWord_of_coreExec (VmCore.input_fetchWord h0 hq hd hi)

/-- Settles O44: at rest the step is the command, and the new core's memory is the image loaded from address 0. -/
theorem constructLoadsTheImage : Obligations.ConstructLoadsTheImage := by
  intro s image ks hrest hk
  have hread (a : Nat) (ha : (a : Int) ≤ addrMax) : (Memory.ofImageFrom 0 image).read a = image.getD a 0 :=
    Memory.ofImageFrom_read 0 image a ha (Nat.zero_le a)
  rw [step_of_command hrest hk]
  by_cases ho : s.orch = none
  · exact ⟨s.core.reconstruct image, hread, rfl, rfl, rfl, rfl, rfl,
      fun _ => ⟨State.command_construct_of_own (s := { s with cmds := ks }) ho image, rfl, rfl⟩, fun hne => absurd ho hne⟩
  · exact ⟨VmCore.construct image, hread, rfl, rfl, rfl, rfl, rfl,
      fun hnone => absurd hnone ho,
      fun _ => ⟨State.command_construct_of_network (s := { s with cmds := ks }) ho image, rfl, rfl⟩⟩

end Sys2Proof.Machine
end

section
/-! SUPPORT. Rules the proofs of the encoding family share: what each check of the decoder answers, the decoder on a word
list, the canonical head, and the shared steps where an operand is Immediate. -/

namespace Sys2Proof

open Sys2Proof.Machine

/-! ### The decoder's checks -/

/-- The decoder recognises each opcode by its number alone (R62, R64). -/
theorem opcodeOf_eq_some {n : Nat} {op : Opcode} : opcodeOf n = some op ↔ n = op.number := by
  constructor
  · intro h
    unfold opcodeOf at h
    split at h <;> cases h <;> rfl
  · rintro rfl
    cases op <;> rfl

/-- The opcodes the decoder recognises (R62). -/
theorem opcodeOf_isSome {n : Nat} : (∃ op, opcodeOf n = some op) ↔ 1 ≤ n ∧ n ≤ 9 ∨ n = 99 := by
  constructor
  · rintro ⟨op, h⟩
    rw [opcodeOf_eq_some.mp h]
    cases op <;> decide
  · rintro (⟨hlo, hhi⟩ | rfl)
    · interval_cases n <;> exact ⟨_, rfl⟩
    · exact ⟨_, rfl⟩

theorem opcodeOf_eq_none {n : Nat} : opcodeOf n = none ↔ ¬ (1 ≤ n ∧ n ≤ 9 ∨ n = 99) := by
  rw [← opcodeOf_isSome, ← Option.isSome_iff_exists, Option.not_isSome_iff_eq_none]

/-- A word without an opcode is rejected for that, whatever its other digits are (R69). -/
theorem decodeWord_of_no_opcode {w : Word} (h : opcodeOf (w.toNat % 100) = none) :
    decodeWord w = .error (.illegalOpcode w) := by
  simp [decodeWord, h]

/-- The checks that follow the opcode's, in the order of R67. -/
theorem decodeWord_of_opcode {w : Word} {op : Opcode} (h0 : 0 ≤ w.toInt) (hop : opcodeOf (w.toNat % 100) = some op) :
    decodeWord w = (decodeMode w 0 >>= fun m0 => decodeMode w 1 >>= fun m1 => decodeMode w 2 >>= fun m2 =>
      if w.toNat / 100000 ≠ 0 then .error (.illegalMode w 3) else checkWriteMode w ⟨op, m0, m1, m2⟩) := by
  simp [decodeWord, not_lt.mpr h0, hop]

/-- A digit of at most 2 decodes to a mode (R63). -/
theorem decodeMode_of_le {w : Word} {i : Nat} (h : w.toNat / 10 ^ (i + 2) % 10 ≤ 2) : ∃ m, decodeMode w i = .ok m := by
  obtain ⟨m, hm⟩ := modeOf_isSome.mpr h
  exact ⟨m, decodeMode_of_digit hm⟩

/-- A digit of 3 to 9 is the fault of its position (R70). -/
theorem decodeMode_of_ge {w : Word} {i : Nat} (h : 3 ≤ w.toNat / 10 ^ (i + 2) % 10) :
    decodeMode w i = .error (.illegalMode w i) :=
  decodeMode_of_no_mode (modeOf_eq_none.mpr h)

/-- The digit 1 is Immediate mode (R63). -/
theorem decodeMode_of_one {w : Word} {i : Nat} (h : w.toNat / 10 ^ (i + 2) % 10 = 1) :
    decodeMode w i = .ok .immediate :=
  decodeMode_of_digit (congrArg modeOf h)

theorem checkWriteMode_of_immediate {w : Word} {h : Head} {p : Nat} (hp : h.op.writePosition = some p)
    (hm : h.mode p = .immediate) : checkWriteMode w h = .error (.immediateWrite w p) := by
  simp [checkWriteMode, hp, hm]

section
variable {w : Word} {op : Opcode} {m0 m1 m2 : Mode} (h0 : 0 ≤ w.toInt) (hop : opcodeOf (w.toNat % 100) = some op)
  (hm0 : decodeMode w 0 = .ok m0) (hm1 : decodeMode w 1 = .ok m1) (hm2 : decodeMode w 2 = .ok m2)
include h0 hop hm0 hm1 hm2

/-- A word below 100000 with legal digits is left to the check of its write target (R71, R72). -/
theorem decodeWord_of_lt (hlt : w.toInt < 100000) : decodeWord w = checkWriteMode w ⟨op, m0, m1, m2⟩ := by
  have hw := word_toInt_nonneg h0
  simp [decodeWord_of_opcode h0 hop, hm0, hm1, hm2, show w.toNat / 100000 = 0 by omega]

/-- A word of at least 100000 with legal digits below has a digit too many (R71). -/
theorem decodeWord_of_ge (hge : 100000 ≤ w.toInt) : decodeWord w = .error (.illegalMode w 3) := by
  have hw := word_toInt_nonneg h0
  simp [decodeWord_of_opcode h0 hop, hm0, hm1, hm2, show w.toNat / 100000 ≠ 0 by omega]

end

/-! ### The decoder on a word list -/

/-- A list whose first word is accepted is decoded when the operand words are all there (R60, R77). -/
theorem decode_cons_of_ok {w : Word} {h : Head} (hw : decodeWord w = .ok h) (ws : List Word) :
    decode (w :: ws) = if ws.length < h.op.arity then .error .truncated
      else .ok (h.build (ws.getD 0 0) (ws.getD 1 0) (ws.getD 2 0), ws.drop h.op.arity) := by
  simp [decode, hw]

/-- A list that decodes is an accepted word and at least as many words as its opcode has operands. -/
theorem decode_eq_ok {ws rest : List Word} {i : Instr} (hd : decode ws = .ok (i, rest)) :
    ∃ w h xs, ws = w :: xs ∧ decodeWord w = .ok h ∧ h.op.arity ≤ xs.length ∧
      i = h.build (xs.getD 0 0) (xs.getD 1 0) (xs.getD 2 0) ∧ rest = xs.drop h.op.arity := by
  cases ws with
  | nil => simp [decode] at hd
  | cons w xs =>
    cases hw : decodeWord w with
    | error f => simp [decode, hw] at hd
    | ok h =>
      rw [decode_cons_of_ok hw] at hd
      split at hd
      · cases hd
      · rename_i hlen
        obtain ⟨rfl, rfl⟩ := Prod.mk.inj (Except.ok.inj hd)
        exact ⟨w, h, xs, rfl, hw, not_lt.mp hlen, rfl, rfl⟩

theorem Opcode.arity_le (op : Opcode) : op.arity ≤ 3 := by cases op <;> decide

/-- A built instruction keeps as many of the words as its opcode has operands (R65). -/
theorem Head.build_operandWords (h : Head) (x0 x1 x2 : Word) :
    (h.build x0 x1 x2).operandWords = [x0, x1, x2].take h.op.arity := by
  obtain ⟨op, m0, m1, m2⟩ := h
  cases op <;> rfl

/-- The operand words the decoder reads by index are the first words of the list. -/
theorem take_getD {xs : List Word} {n : Nat} (h3 : n ≤ 3) (hlen : n ≤ xs.length) :
    [xs.getD 0 0, xs.getD 1 0, xs.getD 2 0].take n = xs.take n := by
  refine List.ext_getElem (by simp; omega) fun i hi hi' => ?_
  have hi3 : i < 3 := by simp at hi; omega
  have hlt : i < xs.length := by simp at hi'; omega
  interval_cases i <;> simp [hlt]

/-- A built instruction's operand words are the first words of the list it is built from (R65, R66). -/
theorem Head.build_operandWords_append {h : Head} {xs : List Word} (hlen : h.op.arity ≤ xs.length) :
    (h.build (xs.getD 0 0) (xs.getD 1 0) (xs.getD 2 0)).operandWords ++ xs.drop h.op.arity = xs := by
  rw [Head.build_operandWords, take_getD h.op.arity_le hlen, List.take_append_drop]

/-! ### The canonical head -/

/-- The canonical head is the head of every instruction the head builds (R74). -/
theorem Head.build_head_eq_canonical (h : Head) (x0 x1 x2 : Word) : (h.build x0 x1 x2).head = h.canonical := by
  obtain ⟨op, m0, m1, m2⟩ := h
  cases op <;> rfl

theorem Head.canonical_op (h : Head) : h.canonical.op = h.op := build_head_op h 0 0 0

/-- The canonical head builds the same instructions: the modes it drops are of positions the opcode does not use. -/
theorem Head.canonical_build (h : Head) (x0 x1 x2 : Word) : h.canonical.build x0 x1 x2 = h.build x0 x1 x2 := by
  obtain ⟨op, m0, m1, m2⟩ := h
  cases op <;> rfl

theorem Head.canonical_mode (h : Head) {i : Nat} (hi : i < 3) :
    h.canonical.mode i = if i < h.op.arity then h.mode i else .position := by
  obtain ⟨op, m0, m1, m2⟩ := h
  match i, hi with
  | 0, _ => cases op <;> rfl
  | 1, _ => cases op <;> rfl
  | 2, _ => cases op <;> rfl

/-- The canonical word of an accepted word is accepted, with the canonical head. -/
theorem decodeWord_canonical {w : Word} {h : Head} (hw : decodeWord w = .ok h) :
    decodeWord (encodeHead h.canonical) = .ok h.canonical :=
  Laws.WordReadBack.of_wf _ (Head.build_wf hw 0 0 0)

end Sys2Proof

namespace Sys2Proof.Machine

open Sys2Proof

/-! ### Immediate operands -/

theorem isTarget_eq_false {d : Operand} : d.isTarget = false ↔ d.mode = .immediate := by
  simp [Operand.isTarget]

/-- An Immediate operand has no address to write to (R72). -/
theorem targetAddress_of_not_isTarget {d : Operand} (hd : d.isTarget = false) (rb : Word) (h : Head) (p : Nat) :
    targetAddress rb h p d = .error (.immediateWrite (encodeHead h) p) := by
  simp [targetAddress, effectiveAddress, isTarget_eq_false.mp hd]

/-- The F3rrw step with an Immediate write target: the target comes before every other check (R83, R199). -/
theorem VmCore.storeBinary_of_not_isTarget {d : Operand} (hd : d.isTarget = false) (lim : Option Nat) (c : VmCore)
    (op : Opcode) (a b : Operand) (f : Word → Word → Except Cause Word) :
    c.storeBinary lim op a b d f = .error (.immediateWrite (encodeHead ⟨op, a.mode, b.mode, d.mode⟩) 2) := by
  simp [VmCore.storeBinary, targetAddress_of_not_isTarget hd]

theorem VmCore.input_of_not_isTarget {d : Operand} (hd : d.isTarget = false) (lim : Option Nat) (c : VmCore) :
    c.input lim d = .error (.immediateWrite (encodeHead ⟨.inp, d.mode, .position, .position⟩) 0) := by
  simp [VmCore.input, targetAddress_of_not_isTarget hd]

/-- An ill-formed instruction is a storing one, and its step is the fault of its write position (log 15). -/
theorem coreExec_of_not_wf {i : Instr} (h : i.wf = false) (lim : Option Nat) (c : VmCore) :
    ∃ p, i.head.op.writePosition = some p ∧
      coreExec i lim c = .error (.immediateWrite (encodeHead i.head) p) := by
  cases i with
  | add a b d => exact ⟨2, rfl, VmCore.storeBinary_of_not_isTarget h ..⟩
  | mul a b d => exact ⟨2, rfl, VmCore.storeBinary_of_not_isTarget h ..⟩
  | lt a b d => exact ⟨2, rfl, VmCore.storeBinary_of_not_isTarget h ..⟩
  | eq a b d => exact ⟨2, rfl, VmCore.storeBinary_of_not_isTarget h ..⟩
  | inp d => exact ⟨0, rfl, VmCore.input_of_not_isTarget h ..⟩
  | out | jt | jf | arb | halt => cases h

@[simp] theorem VmCore.readOperand_imm (lim : Option Nat) (c : VmCore) (v : Word) :
    c.readOperand lim (.imm v) = .ok v := rfl

/-! ### Fetch and jumps -/

/-- A rejected word at a valid `ip` ends the fetch before any operand word is read (R80, R81). -/
theorem VmCore.fetch_of_rejected {lim : Option Nat} {c : VmCore} {f : Cause} (hv : ValidAddr lim c.ip.toInt)
    (hw : decodeWord (c.mem.read c.ip.toNat) = .error f) : c.fetch lim = .error f := by
  simp [VmCore.fetch, VmCore.fetchWord_zero hv, hw]

section
variable {lim : Option Nat} {c : VmCore} {op : Opcode} {a b : Operand} {x y : Word} {taken : Word → Bool}
  (ha : c.readOperand lim a = .ok x) (hb : c.readOperand lim b = .ok y)
include ha hb

/-- A taken jump loads its second operand's value (R120, R121). -/
theorem VmCore.branch_of_taken (ht : taken x = true) : c.branch lim op a b taken = .ok (c.setIp y) := by
  simp [VmCore.branch, ha, hb, ht]

/-- A jump not taken advances. -/
theorem VmCore.branch_of_not_taken (ht : taken x = false) (hi : c.ip.toInt + op.len ≤ addrMax) :
    c.branch lim op a b taken = .ok (c.setIp (wordOf (c.ip.toInt + op.len))) := by
  simp [VmCore.branch, ha, hb, ht, VmCore.advance_of_le hi]

end

/-- The exact sum of a WORD and 0 is that WORD. -/
theorem exactResult_add_zero (x : Word) : exactResult .add x 0 (x.toInt + (0 : Word).toInt) = .ok x := by
  have hsum : x.toInt + (0 : Word).toInt = x.toInt := by simp
  rw [hsum, exactResult_of_fits (word_fits x), wordOf, BitVec.ofInt_toInt]

end Sys2Proof.Machine
end

section
/-! PROOFS. The encoding family (`30_encoding.md`): the decoder and the encoder, the decoder's faults in the order of R67,
words that are not canonical, and the pseudo-instructions. -/

namespace Sys2Proof.Machine

open Sys2Proof

/-- Settles O1: the instruction word reads back to the head, and the head with the operand words rebuilds the
instruction. -/
theorem decodeOfEncodeIsIdentity : Obligations.DecodeOfEncodeIsIdentity := by
  intro i rest hwf
  have hword : decodeWord (encodeHead i.head) = .ok i.head := Laws.WordReadBack.of_wf i hwf
  have hlen := Instr.operandWords_length i
  rw [encode, List.cons_append, decode_cons_of_ok hword, Instr.build_head, List.drop_left' hlen, if_neg]
  simp [hlen]

/-- Settles O2: the decoded instruction is built from an accepted word and the words after it. -/
theorem decodedWordsAreTheInstruction : Obligations.DecodedWordsAreTheInstruction := by
  intro ws i rest hd
  obtain ⟨w, h, xs, rfl, hw, hlen, rfl, rfl⟩ := decode_eq_ok hd
  refine ⟨Head.build_wf hw _ _ _, w, h, ?_, hw, (Head.build_head_eq_canonical h _ _ _).symm⟩
  rw [Head.build_operandWords_append hlen]

/-- Settles O4: the mode digits of the positions below `i` decode, so the check of position `i` is reached. -/
theorem lowestIllegalModeDigitIsReported : Obligations.LowestIllegalModeDigitIsReported := by
  intro w i h0 hop hi hlow hbad
  obtain ⟨op, hop⟩ := opcodeOf_isSome.mpr hop
  have hm (j : Nat) (hj : j < i) : ∃ m, decodeMode w j = .ok m := decodeMode_of_le (hlow j hj)
  have hfault := decodeMode_of_ge hbad
  rw [decodeWord_of_opcode h0 hop]
  match i, hi with
  | 0, _ => simp [hfault]
  | 1, _ =>
    obtain ⟨m0, hm0⟩ := hm 0 (by decide)
    simp [hm0, hfault]
  | 2, _ =>
    obtain ⟨m0, hm0⟩ := hm 0 (by decide)
    obtain ⟨m1, hm1⟩ := hm 1 (by decide)
    simp [hm0, hm1, hfault]

/-- Settles O5: with the opcode and the modes legal, only the check of the digits above them is left to fail. -/
theorem digitsAboveTheModesAreIllegal : Obligations.DigitsAboveTheModesAreIllegal := by
  intro w hop hd hge
  obtain ⟨op, hop⟩ := opcodeOf_isSome.mpr hop
  obtain ⟨m0, hm0⟩ := decodeMode_of_le (hd 0 (by decide))
  obtain ⟨m1, hm1⟩ := decodeMode_of_le (hd 1 (by decide))
  obtain ⟨m2, hm2⟩ := decodeMode_of_le (hd 2 (by decide))
  exact decodeWord_of_ge (by omega) hop hm0 hm1 hm2 hge

/-- Settles O6: the last check finds the Immediate mode at the opcode's write position. -/
theorem immediateWriteTargetsAreIllegal : Obligations.ImmediateWriteTargetsAreIllegal := by
  intro w h0 hlt hd
  obtain ⟨m0, hm0⟩ := decodeMode_of_le (hd 0 (by decide))
  obtain ⟨m1, hm1⟩ := decodeMode_of_le (hd 1 (by decide))
  obtain ⟨m2, hm2⟩ := decodeMode_of_le (hd 2 (by decide))
  refine ⟨fun hop hone => ?_, fun hop hone => ?_⟩
  · obtain ⟨op, hop, hp⟩ : ∃ op, opcodeOf (w.toNat % 100) = some op ∧ op.writePosition = some 2 := by
      rcases hop with h | h | h | h <;> rw [h] <;> exact ⟨_, rfl, rfl⟩
    rw [decodeWord_of_lt h0 hop hm0 hm1 (decodeMode_of_one hone) hlt, checkWriteMode_of_immediate hp rfl]
  · rw [decodeWord_of_lt h0 (congrArg opcodeOf hop) (decodeMode_of_one hone) hm1 hm2 hlt,
      checkWriteMode_of_immediate (p := 0) rfl rfl]

/-- Settles O7: both words are accepted, and their heads build the same instructions. -/
theorem aliasWordsDecodeAsTheirCanonicalWord : Obligations.AliasWordsDecodeAsTheirCanonicalWord := by
  intro w h hw
  refine ⟨fun ws => ?_, h.canonical_op, fun i hi => ?_, fun i hi hle => ?_⟩
  · rw [decode_cons_of_ok hw, decode_cons_of_ok (decodeWord_canonical hw), h.canonical_op, h.canonical_build]
  · rw [h.canonical_mode (hi.trans_le h.op.arity_le), if_pos hi]
  · rw [h.canonical_mode hi, if_neg (not_lt.mpr hle)]

/-- Settles O16 by `coreExec_of_not_wf`. -/
theorem immediateWriteInstructionFaults : Obligations.ImmediateWriteInstructionFaults := by
  intro i s p hwf hp
  obtain ⟨q, hq, hfault⟩ := coreExec_of_not_wf hwf s.params.memLimit s.core
  obtain rfl : q = p := Option.some.inj (hq.symm.trans hp)
  rw [exec_eq_commit, hfault]
  exact Reports.of_error s _

/-- Settles O3: a negative word fails the first check, any other the look-up of its opcode. -/
theorem wordsWithoutAnOpcodeAreIllegal : Obligations.WordsWithoutAnOpcodeAreIllegal := by
  intro w
  refine ⟨fun hneg => if_pos hneg, fun _ hop => decodeWord_of_no_opcode (opcodeOf_eq_none.mpr ?_)⟩
  omega

/-- Settles O8: the decoder evaluated on each list. -/
theorem sampleWordsDecodeAsTheDigitsSay : Obligations.SampleWordsDecodeAsTheDigitsSay :=
  ⟨rfl, rfl, rfl, rfl, rfl, rfl, rfl, rfl, rfl, rfl⟩

/-- Settles O11: the rejection ends the fetch, and the step reports a fault of the fetch. -/
theorem rejectedWordFaultsTheRun : Obligations.RejectedWordFaultsTheRun :=
  fun _ _ hr hv hw => step_reports_of_fetch_error hr (VmCore.fetch_of_rejected hv hw)

/-- Settles O28: a jump not taken, a jump taken, and the exact sum with 0. -/
theorem pseudoInstructionsActAsNamed : Obligations.PseudoInstructionsActAsNamed := by
  intro s
  refine ⟨fun hi => ?nop, fun t y ht => ?jmp, fun a d x k ha hd hi => ?mov⟩
  case nop =>
    have hstep : coreExec Instr.nop s.params.memLimit s.core = .ok (s.core.setIp (wordOf (s.core.ip.toInt + 3))) :=
      VmCore.branch_of_not_taken (op := .jf) rfl rfl rfl hi
    rw [exec_eq_commit, hstep]
    rfl
  case jmp =>
    have hstep : coreExec (Instr.jmp t) s.params.memLimit s.core = .ok (s.core.setIp y) :=
      VmCore.branch_of_taken rfl ht rfl
    rw [exec_eq_commit, hstep]
    rfl
  case mov =>
    have hstep : coreExec (Instr.mov a d) s.params.memLimit s.core =
        .ok ((s.core.writeMem k x).setIp (wordOf (s.core.ip.toInt + 4))) := by
      refine (VmCore.storeBinary_of_operands (y := 0) ha rfl hd _).trans ?_
      rw [exactResult_add_zero, VmCore.advance_of_le (op := .add) hi]
      rfl
    rw [exec_eq_commit, hstep]
    rfl

end Sys2Proof.Machine
end

section
/-! SUPPORT. Rules the proofs of the execution-cycle family share: the operand words of a fetch, an operand read at its
address, and a step with more input behind. -/

namespace Sys2Proof

open Sys2Proof.Machine

/-- An instruction depends on the operand words of the positions its opcode uses alone (R60, R65). -/
theorem Head.build_congr {h : Head} {x0 x1 x2 y0 y1 y2 : Word} (h0 : 0 < h.op.arity → x0 = y0)
    (h1 : 1 < h.op.arity → x1 = y1) (h2 : 2 < h.op.arity → x2 = y2) : h.build x0 x1 x2 = h.build y0 y1 y2 := by
  obtain ⟨op, m0, m1, m2⟩ := h
  cases op <;> simp_all [Head.build, Opcode.arity]

/-- An instruction has one word more than its opcode has operands (R64). -/
theorem encode_build_length (h : Head) (x0 x1 x2 : Word) : (encode (h.build x0 x1 x2)).length = h.op.arity + 1 := by
  simp [encode, Instr.operandWords_length]

end Sys2Proof

namespace Sys2Proof.Machine

open Sys2Proof

/-! ### Fetch -/

/-- A fetch at an address that is not negative and not valid is the capacity's fault (R82, R199). -/
theorem VmCore.fetchWord_capacity {lim : Option Nat} {c : VmCore} {k : Nat} (h0 : 0 ≤ c.ip.toInt + k)
    (h : ¬ ValidAddr lim (c.ip.toInt + k)) : c.fetchWord lim k = .error (.outOfCapacity (c.ip.toInt + k)) := by
  simp [VmCore.fetchWord, checkAddr_capacity h0 h]

/-- An operand word is the one that stands at its position after `ip`; of a position the opcode does not use nothing is
fetched (R82). -/
theorem VmCore.operandWord_of_valid {lim : Option Nat} {c : VmCore} {op : Opcode} {i : Nat} (h0 : 0 ≤ c.ip.toInt)
    (hv : i < op.arity → ValidAddr lim (c.ip.toInt + (i + 1 : Nat))) :
    c.operandWord lim op i = .ok (if i < op.arity then c.mem.read (c.ip.toNat + (i + 1)) else 0) := by
  unfold VmCore.operandWord
  split
  · rename_i hi
    have haddr : (c.ip.toInt + (i + 1 : Nat)).toNat = c.ip.toNat + (i + 1) := by
      have hip := word_toInt_nonneg h0
      omega
    rw [VmCore.fetchWord_of_valid (hv hi), haddr]
  · rfl

/-- The fetch of an instruction whose words are all at valid addresses (R80 to R82). -/
theorem VmCore.fetch_of_valid {lim : Option Nat} {c : VmCore} {h : Head}
    (hv : ∀ k ≤ h.op.arity, ValidAddr lim (c.ip.toInt + k)) (hw : decodeWord (c.mem.read c.ip.toNat) = .ok h) :
    c.fetch lim = .ok (h.build (c.mem.read (c.ip.toNat + 1)) (c.mem.read (c.ip.toNat + 2))
      (c.mem.read (c.ip.toNat + 3))) := by
  have hip : ValidAddr lim c.ip.toInt := by simpa using hv 0 (Nat.zero_le _)
  have hword (i : Nat) := VmCore.operandWord_of_valid (op := h.op) (i := i) hip.1 fun hi => hv (i + 1) hi
  rw [VmCore.fetch_of_head (VmCore.fetchWord_zero hip) hw, hword 0, hword 1, hword 2]
  exact congrArg Except.ok (Head.build_congr (if_pos ·) (if_pos ·) (if_pos ·))

theorem coreStep_of_fetch {s : State} {i : Instr} (h : s.core.fetch s.params.memLimit = .ok i) :
    s.coreStep = exec i s := by
  simp [State.coreStep, h]

/-! ### Read operands -/

/-- An operand with an address is read there, after `CheckAddr` of it (R85). -/
theorem VmCore.readOperand_of_address {lim : Option Nat} {c : VmCore} {o : Operand} {ea : Int}
    (h : effectiveAddress c.rb o = some ea) :
    c.readOperand lim o = (checkAddr lim ea >>= fun a => .ok (c.mem.read a)) := by
  simp [VmCore.readOperand, h]

/-! ### More input behind -/

/-- Neither the fetch nor the decoder reads the input (R95). -/
@[simp] theorem VmCore.fetch_setInq (lim : Option Nat) (c : VmCore) (q : List Word) :
    (c.setInq q).fetch lim = c.fetch lim := rfl

/-- A core committed, or a fault taken, with more input behind leaves that input behind in the next state. -/
theorem State.commit_feed {s t : State} {r : Except Cause VmCore} (xs : List Word) (h : s.commit r = .next t) :
    (s.feed xs).commit (r.map fun c => c.setInq (c.inq ++ xs)) = .next (t.feed xs) := by
  rcases State.commit_eq_next h with ⟨c, rfl, rfl⟩ | ⟨f, rfl, rfl⟩
  · rfl
  · rfl

/-- A step that does not suspend does the same with more input behind, which is still behind afterwards (R95). -/
theorem step_feed {s t : State} (xs : List Word) (hr : s.core.status = .running) (h : step s = .next t)
    (hn : t.core.status ≠ .awaitingInput) : step (s.feed xs) = .next (t.feed xs) := by
  rw [step_of_running hr, coreStep_eq_commit] at h
  rw [step_of_running (s := s.feed xs) hr, coreStep_eq_commit, State.feed_core, State.feed_params, VmCore.fetch_setInq]
  cases hi : s.core.fetch s.params.memLimit with
  | error f =>
    rw [hi] at h
    exact State.commit_feed xs h
  | ok i =>
    rw [hi, except_ok_bind] at h
    rw [except_ok_bind]
    rcases coreExec_feed xs with ⟨f, hf, hfeed⟩ | ⟨c, hc, hs | hfeed⟩
    · rw [hf] at h
      rw [hfeed]
      exact State.commit_feed xs h
    · rw [hc] at h
      cases h
      exact absurd hs hn
    · rw [hc] at h
      rw [hfeed]
      exact State.commit_feed xs h

/-- An instruction that leaves a running core suspended is an IN without input, and sets the status alone (R90). -/
theorem coreExec_suspended {i : Instr} {lim : Option Nat} {c c' : VmCore} (h : coreExec i lim c = .ok c')
    (hr : c.status = .running) (hs : c'.status = .awaitingInput) :
    c.inq = [] ∧ c' = c.setStatus .awaitingInput := by
  rcases coreExec_eq_ok h with ⟨_, _, _, _, rfl⟩ | ⟨_, _, _, _, _, _, _, _, _, rfl⟩ | ⟨_, _, hq, rfl⟩ |
    ⟨_, _, _, _, _, rfl⟩ | ⟨_, rfl⟩ | ⟨_, _, _, _, rfl⟩ | ⟨_, rfl⟩
  case inr.inr.inl => exact ⟨hq, rfl⟩
  all_goals simp [hr] at hs

/-- A step of a running core that suspends it (R90). -/
theorem step_suspended {s t : State} (hr : s.core.status = .running) (h : step s = .next t)
    (hs : t.core.status = .awaitingInput) : s.core.inq = [] ∧ t = s.withCore (s.core.setStatus .awaitingInput) := by
  obtain ⟨i, c, _, hc, rfl⟩ := step_running_of_not_faulted hr h (by simp [hs])
  obtain ⟨hq, rfl⟩ := coreExec_suspended hc hr hs
  exact ⟨hq, rfl⟩

/-- The host's input and `run` put a suspended core back at its IN, as if the input had stood there before (R91, R95). -/
theorem State.resume_feed_suspended {s : State} (xs : List Word) (hr : s.core.status = .running) :
    ((s.withCore (s.core.setStatus .awaitingInput)).feed xs).resume = s.feed xs := by
  have hcore : ((s.core.setStatus .awaitingInput).setInq (s.core.inq ++ xs)).setStatus .running =
      s.core.setInq (s.core.inq ++ xs) := by
    rw [← hr]
    rfl
  rw [State.resume, State.feed_core, VmCore.startRun_of_ready_or_awaiting _ (.inr rfl)]
  exact congrArg s.withCore hcore

/-- A suspended run, with more input from the start, comes in one step fewer to where that input and `run` put it
(R95). -/
theorem CoreSteps.feed_to_resume {n : Nat} {s t : State} (xs : List Word) (h : CoreSteps n s t)
    (hr : s.core.status = .running) (ht : t.core.status = .awaitingInput) :
    CoreSteps (n - 1) (s.feed xs) (t.feed xs).resume := by
  induction h with
  | refl s => simp [hr] at ht
  | @next k s m t _ hs hrest ih =>
    cases hrest with
    | refl =>
      obtain ⟨_, rfl⟩ := step_suspended hr hs ht
      rw [State.resume_feed_suspended xs hr]
      exact .refl _
    | next hm hs' hrest' =>
      exact .next hr (step_feed xs hr hs (by simp [hm])) (ih hm ht)

end Sys2Proof.Machine
end

section
/-! PROOFS. The execution-cycle family (`40_execution_cycle.md`): fetch and decode, read operands, the exits of a running
core, and the suspended run. -/

namespace Sys2Proof.Machine

open Sys2Proof

/-- Settles O12: the words before operand word `k` are fetched, and its own fetch is the capacity's fault. -/
theorem operandWordBeyondTheCapacityFaults : Obligations.OperandWordBeyondTheCapacityFaults := by
  intro s h k hr hk hv hw hbad
  have hip : ValidAddr s.params.memLimit s.core.ip.toInt := by simpa using hv 0 (Nat.zero_le k)
  have hgood (i : Nat) (hi : i < k) := VmCore.operandWord_of_valid (op := h.op) (i := i) hip.1 fun _ => hv (i + 1) hi
  have hfault : s.core.operandWord s.params.memLimit h.op k = .error (.outOfCapacity (s.core.ip.toInt + k + 1)) := by
    have h0 : 0 ≤ s.core.ip.toInt := hip.1
    rw [VmCore.operandWord, if_pos hk, VmCore.fetchWord_capacity (by omega) (by simpa [add_assoc] using hbad)]
    simp [add_assoc]
  refine step_reports_of_fetch_error hr ?_
  rw [VmCore.fetch_of_head (VmCore.fetchWord_zero hip) hw]
  match k, hk.trans_le h.op.arity_le with
  | 0, _ => simp [hfault]
  | 1, _ => simp [hgood 0, hfault]
  | 2, _ => simp [hgood 0, hgood 1, hfault]

/-- Settles O33: the instruction fetched goes on to one of the statuses of `coreExec_status`, or a fault is taken. -/
theorem runningCoreTransitions : Obligations.RunningCoreTransitions := by
  intro s hr
  obtain ⟨c, hstep⟩ := step_running_next hr
  refine ⟨c, hstep, ?_⟩
  rcases step_running_eq_next hr hstep with ⟨i, c', hi, hc, heq⟩ | ⟨f, heq⟩
  · obtain rfl : c = c' := congrArg State.core heq
    rcases coreExec_status hc with hs | ⟨hs, ⟨d, rfl⟩, hq⟩ | ⟨hs, rfl⟩
    · exact .inl (hs.trans hr)
    · exact .inr (.inl ⟨hs, hq, d, hi⟩)
    · exact .inr (.inr (.inl ⟨hs, hi⟩))
  · obtain rfl : c = s.core.takeFault f := congrArg State.core heq
    exact .inr (.inr (.inr ⟨rfl, f, rfl⟩))

/-- Settles O37 by `step_suspended`. -/
theorem suspensionChangesOnlyTheStatus : Obligations.SuspensionChangesOnlyTheStatus := fun _ _ => step_suspended

/-- Settles O38: the next state is the same one with the values still behind (`step_feed`). -/
theorem laterInputIsNotSeen : Obligations.LaterInputIsNotSeen :=
  fun _ t xs hr h hn => ⟨t.feed xs, step_feed xs hr h hn, State.Alike.refl _⟩

/-- Settles O39: the one run reaches the resumed state, the step that suspended left out, and goes on as it does. -/
theorem suspendThenResumeIsOneRun : Obligations.SuspendThenResumeIsOneRun :=
  fun _ _ _ _ u xs hr hn ht hk => ⟨u, (hn.feed_to_resume xs hr ht).trans hk, State.Alike.refl u⟩

/-- Settles O9: the words that decode are the words that the fetch reads (`VmCore.fetch_of_valid`). -/
theorem stepRunsTheDecodedInstruction : Obligations.StepRunsTheDecodedInstruction := by
  intro s i rest hr hv hd
  obtain ⟨w, h, xs, hws, hw, -, rfl, -⟩ := decode_eq_ok hd
  obtain ⟨rfl, rfl⟩ := List.cons.inj hws
  rw [encode_build_length] at hv
  rw [step_of_running hr]
  exact coreStep_of_fetch (VmCore.fetch_of_valid (fun k hk => hv k (Nat.lt_succ_of_le hk)) hw)

/-- Settles O14: each mode's effective address, and the read there. -/
theorem readOperandFollowsItsMode : Obligations.ReadOperandFollowsItsMode := by
  intro lim c raw
  have hpos : c.readOperand lim ⟨.position, raw⟩ = _ := VmCore.readOperand_of_address rfl
  have hrel : c.readOperand lim ⟨.relative, raw⟩ = _ := VmCore.readOperand_of_address rfl
  rw [hpos, hrel]
  refine ⟨rfl, fun hv => ?_, fun hv => ?_, fun f hf => ?_, fun f hf => ?_⟩
  · rw [checkAddr_of_valid hv, except_ok_bind]
  · rw [checkAddr_of_valid hv, except_ok_bind]
  · rw [hf, except_error_bind]
  · rw [hf, except_error_bind]

end Sys2Proof.Machine
end

section
/-! SUPPORT. Rules the proofs of the instructions share: an instruction whose own step goes on or faults, and the three
outcomes of the step of ADD, MUL, LT and EQ once the operands have values and the target is valid. -/

namespace Sys2Proof.Machine

open Sys2Proof

theorem exec_of_coreExec_ok {i : Instr} {s : State} {c : VmCore} (h : coreExec i s.params.memLimit s.core = .ok c) :
    exec i s = .next (s.withCore c) := by
  rw [exec_eq_commit, h, State.commit_ok]

/-- A fault of an instruction's own step is what the instruction reports (R89). -/
theorem exec_reports_of_coreExec_error {i : Instr} {s : State} {e : Cause}
    (h : coreExec i s.params.memLimit s.core = .error e) : Reports (exec i s) s e := by
  rw [exec_eq_commit, h]
  exact Reports.of_error s e

section
variable {lim : Option Nat} {c : VmCore} {op : Opcode} {a b d : Operand} {x y r : Word} {k : Nat} {e : Cause}
  {f : Word → Word → Except Cause Word} (ha : c.readOperand lim a = .ok x) (hb : c.readOperand lim b = .ok y)
  (hd : c.TargetAt lim d k)
include ha hb hd

/-- With a result and room to advance, the result is stored at the target and `ip` moves past the instruction (R55, R87). -/
theorem VmCore.storeBinary_of_result (hr : f x y = .ok r) (hi : c.ip.toInt + op.len ≤ addrMax) :
    c.storeBinary lim op a b d f = .ok ((c.writeMem k r).setIp (wordOf (c.ip.toInt + op.len))) := by
  rw [VmCore.storeBinary_of_operands ha hb hd, hr, VmCore.advance_of_le hi]
  rfl

/-- The fault of the result comes before the one of `Advance` (R199). -/
theorem VmCore.storeBinary_of_result_error (hr : f x y = .error e) : c.storeBinary lim op a b d f = .error e := by
  rw [VmCore.storeBinary_of_operands ha hb hd, hr, except_error_bind]

/-- With a result but no room to advance, the step is the fault of `Advance` (R87). -/
theorem VmCore.storeBinary_of_advance_error (hr : f x y = .ok r) (hi : addrMax < c.ip.toInt + op.len) :
    c.storeBinary lim op a b d f = .error (.outOfCapacity (c.ip.toInt + op.len)) := by
  rw [VmCore.storeBinary_of_operands ha hb hd, hr, VmCore.advance_of_gt hi]
  rfl

end

/-- An instruction whose result is `exactResult` of an integer function `g` of its operands has the three outcomes of R102
and R87: the exact result stored, `Overflow`, or the fault of `Advance`. -/
theorem exec_of_exactResult {i : Instr} {op : Opcode} {s : State} {a b d : Operand} {x y : Word} {k : Nat}
    (g : Word → Word → Int)
    (hstep : coreExec i s.params.memLimit s.core =
      s.core.storeBinary s.params.memLimit op a b d fun x y => exactResult op x y (g x y))
    (ha : s.core.readOperand s.params.memLimit a = .ok x) (hb : s.core.readOperand s.params.memLimit b = .ok y)
    (hd : s.core.TargetAt s.params.memLimit d k) :
    (Fits64 (g x y) → s.core.ip.toInt + op.len ≤ addrMax →
      exec i s = .next (s.withCore
        ((s.core.writeMem k (wordOf (g x y))).setIp (wordOf (s.core.ip.toInt + op.len))))) ∧
    (¬ Fits64 (g x y) → Reports (exec i s) s (.overflow op x y)) ∧
    (Fits64 (g x y) → addrMax < s.core.ip.toInt + op.len →
      Reports (exec i s) s (.outOfCapacity (s.core.ip.toInt + op.len))) := by
  refine ⟨fun hfit hi => ?stored, fun hfit => ?overflow, fun hfit hi => ?noRoom⟩
  case stored =>
    exact exec_of_coreExec_ok (hstep.trans (VmCore.storeBinary_of_result ha hb hd (exactResult_of_fits hfit) hi))
  case overflow =>
    exact exec_reports_of_coreExec_error
      (hstep.trans (VmCore.storeBinary_of_result_error ha hb hd (exactResult_of_not_fits hfit)))
  case noRoom =>
    exact exec_reports_of_coreExec_error
      (hstep.trans (VmCore.storeBinary_of_advance_error ha hb hd (exactResult_of_fits hfit) hi))

end Sys2Proof.Machine
end

section
/-! PROOFS. The arithmetic family (`41_arithmetic.md`): the exact results of ADD and MUL and their faults. -/

namespace Sys2Proof.Machine

open Sys2Proof

/-- Settles O18: the exact result is the sum, and ADD has 4 words. -/
theorem addStoresTheExactSum : Obligations.AddStoresTheExactSum :=
  fun _ a b d _ _ _ ha hb hd =>
    exec_of_exactResult (i := .add a b d) (op := .add) (fun x y => x.toInt + y.toInt) rfl ha hb hd

/-- Settles O19: the exact result is the product, and MUL has 4 words. -/
theorem mulStoresTheExactProduct : Obligations.MulStoresTheExactProduct :=
  fun _ a b d _ _ _ ha hb hd =>
    exec_of_exactResult (i := .mul a b d) (op := .mul) (fun x y => x.toInt * y.toInt) rfl ha hb hd

end Sys2Proof.Machine
end

section
/-! SUPPORT. The outcomes of the steps of IN and OUT beside `VmCore.input_of_cons`: IN with no input, OUT with room to
advance, and the fault of `Advance` in both. -/

namespace Sys2Proof.Machine

open Sys2Proof

section
variable {lim : Option Nat} {c : VmCore} {d : Operand} {k : Nat} (hd : c.TargetAt lim d k)
include hd

/-- With no input and room to advance, IN only suspends the run (R90, R110). -/
theorem VmCore.input_of_nil (hq : c.inq = []) (hi : c.ip.toInt + Opcode.inp.len ≤ addrMax) :
    c.input lim d = .ok (c.setStatus .awaitingInput) := by
  obtain ⟨htarget, hcheck⟩ := hd.checks ⟨.inp, d.mode, .position, .position⟩ 0
  simp [VmCore.input, htarget, hcheck, VmCore.advance_of_le hi, hq]

/-- IN checks `Advance` before the input, so the fault of `Advance` does not depend on the input (R87, R110). -/
theorem VmCore.input_of_advance_error (hi : addrMax < c.ip.toInt + Opcode.inp.len) :
    c.input lim d = .error (.outOfCapacity (c.ip.toInt + Opcode.inp.len)) := by
  obtain ⟨htarget, hcheck⟩ := hd.checks ⟨.inp, d.mode, .position, .position⟩ 0
  simp [VmCore.input, htarget, hcheck, VmCore.advance_of_gt hi]

end

section
variable {lim : Option Nat} {c : VmCore} {a : Operand} {x : Word} (ha : c.readOperand lim a = .ok x)
include ha

/-- With a value and room to advance, OUT appends the value and moves past the instruction (R111). -/
theorem VmCore.output_of_operand (hi : c.ip.toInt + Opcode.out.len ≤ addrMax) :
    c.output lim a = .ok ((c.pushOut x).setIp (wordOf (c.ip.toInt + Opcode.out.len))) := by
  simp [VmCore.output, ha, VmCore.advance_of_le hi]

/-- With a value but no room to advance, OUT is the fault of `Advance` (R87). -/
theorem VmCore.output_of_advance_error (hi : addrMax < c.ip.toInt + Opcode.out.len) :
    c.output lim a = .error (.outOfCapacity (c.ip.toInt + Opcode.out.len)) := by
  simp [VmCore.output, ha, VmCore.advance_of_gt hi]

end

end Sys2Proof.Machine
end

section
/-! PROOFS. The input and output family (`42_io.md`): IN with and without input, OUT, and their `Advance`. -/

namespace Sys2Proof.Machine

open Sys2Proof

/-- Settles O22: one rule of IN's own step for each outcome; with a target that passes its checks, only `Advance` can
fault. -/
theorem inStoresTheNextInputOrSuspends : Obligations.InStoresTheNextInputOrSuspends := by
  intro s d k hd
  refine ⟨fun v q hq hi => ?stored, fun hq hi => ?suspended, fun hi => ?noRoom⟩
  case stored => exact exec_of_coreExec_ok (i := .inp d) (VmCore.input_of_cons hq hd hi)
  case suspended => exact exec_of_coreExec_ok (i := .inp d) (VmCore.input_of_nil hd hq hi)
  case noRoom => exact exec_reports_of_coreExec_error (i := .inp d) (VmCore.input_of_advance_error hd hi)

/-- Settles O23: OUT's own step appends the value, or is the fault of `Advance`. -/
theorem outAppendsItsOperand : Obligations.OutAppendsItsOperand := by
  intro s a x ha
  refine ⟨fun hi => ?appended, fun hi => ?noRoom⟩
  case appended => exact exec_of_coreExec_ok (i := .out a) (VmCore.output_of_operand ha hi)
  case noRoom => exact exec_reports_of_coreExec_error (i := .out a) (VmCore.output_of_advance_error ha hi)

end Sys2Proof.Machine
end

section
/-! SUPPORT. What a jump does beside `VmCore.branch_of_taken` and `VmCore.branch_of_not_taken`: the fault of its `Advance`,
and the three outcomes of an instruction whose step is `VmCore.branch`. -/

namespace Sys2Proof.Machine

open Sys2Proof

section
variable {a b : Operand} {x y : Word}

/-- A jump not taken with no room to advance is the fault of `Advance` (R87). -/
theorem VmCore.branch_of_advance_error {lim : Option Nat} {c : VmCore} {op : Opcode} {taken : Word → Bool}
    (ha : c.readOperand lim a = .ok x) (hb : c.readOperand lim b = .ok y) (ht : taken x = false)
    (hi : addrMax < c.ip.toInt + op.len) :
    c.branch lim op a b taken = .error (.outOfCapacity (c.ip.toInt + op.len)) := by
  simp [VmCore.branch, ha, hb, ht, VmCore.advance_of_gt hi]

/-- An instruction whose step is `VmCore.branch` loads the second value unchecked (R122), moves past itself, or is the fault
of `Advance` (R87). -/
theorem exec_of_branch {i : Instr} {op : Opcode} {s : State} (taken : Word → Bool)
    (hstep : coreExec i s.params.memLimit s.core = s.core.branch s.params.memLimit op a b taken)
    (ha : s.core.readOperand s.params.memLimit a = .ok x) (hb : s.core.readOperand s.params.memLimit b = .ok y) :
    (taken x = true → exec i s = .next (s.withCore (s.core.setIp y))) ∧
    (taken x = false → s.core.ip.toInt + op.len ≤ addrMax →
      exec i s = .next (s.withCore (s.core.setIp (wordOf (s.core.ip.toInt + op.len))))) ∧
    (taken x = false → addrMax < s.core.ip.toInt + op.len →
      Reports (exec i s) s (.outOfCapacity (s.core.ip.toInt + op.len))) := by
  refine ⟨fun ht => ?taken, fun ht hi => ?advanced, fun ht hi => ?noRoom⟩
  case taken => exact exec_of_coreExec_ok (hstep.trans (VmCore.branch_of_taken ha hb ht))
  case advanced => exact exec_of_coreExec_ok (hstep.trans (VmCore.branch_of_not_taken ha hb ht hi))
  case noRoom => exact exec_reports_of_coreExec_error (hstep.trans (VmCore.branch_of_advance_error ha hb ht hi))

end

end Sys2Proof.Machine
end

section
/-! PROOFS. The jump family (`43_jumps.md`): JT and JF, taken and not taken, and their `Advance`. -/

namespace Sys2Proof.Machine

open Sys2Proof

/-- Settles O24: JT's test is `x ≠ 0`, and JT has 3 words. -/
theorem jtJumpsWhenNonzero : Obligations.JtJumpsWhenNonzero := by
  intro s a b x y ha hb
  obtain ⟨htaken, hadvanced, hnoRoom⟩ := exec_of_branch (i := .jt a b) (op := .jt) (fun x => x != 0) rfl ha hb
  exact ⟨fun hx => htaken (bne_iff_ne.mpr hx), fun hx => hadvanced (bne_eq_false_iff_eq.mpr hx),
    fun hx => hnoRoom (bne_eq_false_iff_eq.mpr hx)⟩

/-- Settles O25: JF's test is `x = 0`, and JF has 3 words. -/
theorem jfJumpsWhenZero : Obligations.JfJumpsWhenZero := by
  intro s a b x y ha hb
  obtain ⟨htaken, hadvanced, hnoRoom⟩ := exec_of_branch (i := .jf a b) (op := .jf) (fun x => x == 0) rfl ha hb
  exact ⟨fun hx => htaken (beq_iff_eq.mpr hx), fun hx => hadvanced (beq_eq_false_iff_ne.mpr hx),
    fun hx => hnoRoom (beq_eq_false_iff_ne.mpr hx)⟩

end Sys2Proof.Machine
end

section
/-! SUPPORT. The two outcomes of an instruction whose result cannot fault: the result stored, or the fault of `Advance`. -/

namespace Sys2Proof.Machine

open Sys2Proof

/-- An instruction that stores a function `g` of its operand values, defined for all values, has no fault but the one of
`Advance` left once the operands have values and the target is valid (R87, R199). -/
theorem exec_of_totalResult {i : Instr} {op : Opcode} {s : State} {a b d : Operand} {x y : Word} {k : Nat}
    (g : Word → Word → Word)
    (hstep : coreExec i s.params.memLimit s.core =
      s.core.storeBinary s.params.memLimit op a b d fun x y => .ok (g x y))
    (ha : s.core.readOperand s.params.memLimit a = .ok x) (hb : s.core.readOperand s.params.memLimit b = .ok y)
    (hd : s.core.TargetAt s.params.memLimit d k) :
    (s.core.ip.toInt + op.len ≤ addrMax →
      exec i s = .next (s.withCore ((s.core.writeMem k (g x y)).setIp (wordOf (s.core.ip.toInt + op.len))))) ∧
    (addrMax < s.core.ip.toInt + op.len → Reports (exec i s) s (.outOfCapacity (s.core.ip.toInt + op.len))) := by
  refine ⟨fun hi => ?stored, fun hi => ?noRoom⟩
  case stored => exact exec_of_coreExec_ok (hstep.trans (VmCore.storeBinary_of_result ha hb hd rfl hi))
  case noRoom =>
    exact exec_reports_of_coreExec_error (hstep.trans (VmCore.storeBinary_of_advance_error ha hb hd rfl hi))

end Sys2Proof.Machine
end

section
/-! PROOFS. The comparison family (`44_compare.md`): LT and EQ and their `Advance`. -/

namespace Sys2Proof.Machine

open Sys2Proof

/-- Settles O20: LT's result is the truth word of `<` on the signed values, and LT has 4 words. -/
theorem ltStoresTheSignedComparison : Obligations.LtStoresTheSignedComparison := by
  intro s a b d x y k ha hb hd
  rw [← truthWord_lt x y]
  exact exec_of_totalResult (i := .lt a b d) (op := .lt) (fun x y => truthWord (decide (x.toInt < y.toInt)))
    rfl ha hb hd

/-- Settles O21: EQ's result is the truth word of the equality of the two WORDs, and EQ has 4 words. -/
theorem eqStoresTheEquality : Obligations.EqStoresTheEquality := by
  intro s a b d x y k ha hb hd
  rw [← truthWord_eq x y]
  exact exec_of_totalResult (i := .eq a b d) (op := .eq) (fun x y => truthWord (decide (x = y))) rfl ha hb hd

end Sys2Proof.Machine
end

section
/-! SUPPORT. The three outcomes of ARB's own step once its operand has a value: the new base set, `Overflow`, or the fault
of `Advance`. -/

namespace Sys2Proof.Machine

open Sys2Proof

section
variable {lim : Option Nat} {c : VmCore} {a : Operand} {x : Word} (ha : c.readOperand lim a = .ok x)
include ha

/-- With a new base that is a WORD and room to advance, ARB sets the base and moves past the instruction (R140). -/
theorem VmCore.adjustBase_of_fits (hfit : Fits64 (c.rb.toInt + x.toInt))
    (hi : c.ip.toInt + Opcode.arb.len ≤ addrMax) :
    c.adjustBase lim a =
      .ok ((c.setRb (wordOf (c.rb.toInt + x.toInt))).setIp (wordOf (c.ip.toInt + Opcode.arb.len))) := by
  simp [VmCore.adjustBase, ha, exactResult_of_fits hfit, VmCore.advance_of_le hi]

/-- A new base that is no WORD is `Overflow`, whether or not there is room to advance (R140, R199). -/
theorem VmCore.adjustBase_of_not_fits (hfit : ¬ Fits64 (c.rb.toInt + x.toInt)) :
    c.adjustBase lim a = .error (.overflow .arb c.rb x) := by
  simp [VmCore.adjustBase, ha, exactResult_of_not_fits hfit]

/-- With a new base that is a WORD but no room to advance, ARB is the fault of `Advance` (R87). -/
theorem VmCore.adjustBase_of_advance_error (hfit : Fits64 (c.rb.toInt + x.toInt))
    (hi : addrMax < c.ip.toInt + Opcode.arb.len) :
    c.adjustBase lim a = .error (.outOfCapacity (c.ip.toInt + Opcode.arb.len)) := by
  simp [VmCore.adjustBase, ha, exactResult_of_fits hfit, VmCore.advance_of_gt hi]

end

end Sys2Proof.Machine
end

section
/-! PROOFS. The relative base family (`45_relative_base.md`): the exact new base of ARB and its faults. -/

namespace Sys2Proof.Machine

open Sys2Proof

/-- Settles O26: ARB's own step sets the exact new base, or is `Overflow`, or is the fault of `Advance`; ARB has 2 words. -/
theorem arbAddsToTheBase : Obligations.ArbAddsToTheBase := by
  intro s a x ha
  refine ⟨fun hfit hi => ?adjusted, fun hfit => ?overflow, fun hfit hi => ?noRoom⟩
  case adjusted => exact exec_of_coreExec_ok (i := .arb a) (VmCore.adjustBase_of_fits ha hfit hi)
  case overflow => exact exec_reports_of_coreExec_error (i := .arb a) (VmCore.adjustBase_of_not_fits ha hfit)
  case noRoom => exact exec_reports_of_coreExec_error (i := .arb a) (VmCore.adjustBase_of_advance_error ha hfit hi)

end Sys2Proof.Machine
end

section
/-! PROOFS. The terminate family (`46_terminate.md`): HALT sets the status and neither advances nor faults. -/

namespace Sys2Proof.Machine

open Sys2Proof

/-- Settles O27: HALT's own step is its core with the status set, in every state, and `exec` puts that core back. -/
theorem haltTerminatesTheRun : Obligations.HaltTerminatesTheRun := by
  intro s
  have hcore : coreExec .halt s.params.memLimit s.core = .ok (s.core.setStatus .terminated) := rfl
  exact exec_of_coreExec_ok hcore

end Sys2Proof.Machine
end

section
/-! SUPPORT. Rules the proofs of the feedback-network family share: `construct` and `drive` answered, each action of the
driving orchestrator, the three ways on after a run has returned, and each action of the search. -/

namespace Sys2Proof.Machine

open Sys2Proof

/-! ### `construct` and `drive` -/

/-- A core right after construct reads the image, and 0 beyond it (R41, R42). -/
theorem VmCore.construct_read (image : List Word) {a : Nat} (ha : (a : Int) ≤ addrMax) :
    (VmCore.construct image).mem.read a = image.getD a 0 :=
  Memory.ofImageFrom_read 0 image a ha (Nat.zero_le a)

/-- The cores of a constructed network are all the cores of the block; with `N = 0` one stays (log 13). -/
theorem State.constructNet_cores (s : State) (image : List Word) (topology : Topology) (n : Nat) :
    (s.constructNet image topology n).cores = List.replicate (max 1 n) (VmCore.construct image) := by
  cases n with
  | zero => rfl
  | succ n =>
    rw [Nat.max_eq_right (Nat.le_add_left 1 n)]
    rfl

theorem Orch.accepts_iff {o : Orch} {phases : List Word} :
    o.accepts phases = true ↔ o.netstatus = .built ∧ 1 ≤ o.n ∧ phases.length = o.n := decide_eq_true_iff

theorem State.startDrive_of_accepts {s : State} {o : Orch} {phases : List Word} (ho : s.orch = some o)
    (h : o.accepts phases = true) :
    s.startDrive phases = .next { s with orch := some (o.start s.params.initialSignal phases), reply := none } := by
  simp [State.startDrive, ho, h]

theorem State.startDrive_of_not_accepts {s : State} {o : Orch} {phases : List Word} (ho : s.orch = some o)
    (h : ¬ o.accepts phases = true) :
    s.startDrive phases = .next { s with reply := some (.fault .configError) } := by
  simp [State.startDrive, ho, h]

/-! ### The actions of the driving orchestrator -/

/-- The values a core is seeded with (R163): its phase in the first pass only, then the signal. -/
theorem Orch.seeds_eq {o : Orch} {i : Nat} {v p : Word} (hv : o.signal = some v) (hp : o.phases[i]? = some p) :
    o.seeds i = if o.pass = 0 then [p, v] else [v] := by
  unfold Orch.seeds
  split <;> simp [hv, hp]

/-- A core with `xs` behind its input and an empty output: what the orchestrator issues `run` on (R163). -/
def VmCore.seeded (c : VmCore) (xs : List Word) : VmCore := { c with inq := c.inq ++ xs, outq := [] }

@[simp] theorem VmCore.seeded_status (c : VmCore) (xs : List Word) : (c.seeded xs).status = c.status := rfl

/-- With no run issued, the driving orchestrator issues the run of the selected core, seeded. -/
theorem step_of_not_waiting {s : State} {o : Orch} (hr : s.core.status ≠ .running) (ho : s.orch = some o)
    (hd : o.netstatus = .driving) (hw : o.waiting = false) :
    step s = .next { s with
      core := (s.core.seeded (o.seeds s.before.length)).startRun s.params.runOnTerminated
      orch := some { o with waiting := true } } := by
  rw [step_of_driving hr ho hd, State.orchStep, hw]
  rfl

/-- A run that has faulted ends the drive (R170). -/
theorem step_of_faulted_run {s : State} {o : Orch} {f : Cause} (ho : s.orch = some o) (hd : o.netstatus = .driving)
    (hw : o.waiting = true) (hs : s.core.status = .faulted) (hc : s.core.cause = some f) :
    step s = .next (s.failDrive o (.coreFault s.before.length f)) := by
  rw [step_of_driving (by simp [hs]) ho hd, State.orchStep, if_pos hw, State.takeReturn, hs, hc]

/-- What an action of the driving orchestrator can be: a run issued, a faulted run's return taken, or the return of a run
that ended with an exit status. -/
theorem State.orchStep_eq_next {s t : State} {o : Orch} (h : s.orchStep o = .next t) :
    t = s.issueRun o ∨ (∃ f, t = s.failDrive o f) ∨
      (o.waiting = true ∧ (s.core.status = .terminated ∨ s.core.status = .awaitingInput) ∧
        ∃ e, t = s.afterRun o e) := by
  unfold State.orchStep at h
  split at h
  · rename_i hw
    unfold State.takeReturn at h
    split at h <;> cases h
    · exact .inr (.inl ⟨_, rfl⟩)
    · exact .inr (.inr ⟨hw, .inl ‹_›, _, rfl⟩)
    · exact .inr (.inr ⟨hw, .inr ‹_›, _, rfl⟩)
  · cases h
    exact .inl rfl

/-- Taking a return keeps every core, and the selection stays or moves to the next core or to core 0 (R166). -/
theorem State.afterRun_cores (s : State) (o : Orch) (e : ExitStatus) :
    (s.afterRun o e).cores = s.cores ∧
      ((s.afterRun o e).before = s.before ∨ (s.afterRun o e).before.length = s.before.length + 1 ∨
        s.after = [] ∧ (s.afterRun o e).before = []) := by
  unfold State.afterRun
  split
  · exact ⟨rfl, .inl rfl⟩
  · exact s.moveOn_cores _

/-! ### The signal after a run -/

/-- The last output is the new signal, whatever the policy (R165). -/
@[simp] theorem nextSignal_append (p : NoOutputPolicy) (signal : Option Word) (out : List Word) (v : Word) :
    nextSignal p signal (out ++ [v]) = some v := by
  simp [nextSignal]

@[simp] theorem nextSignal_keep_nil (signal : Option Word) : nextSignal .keep signal [] = signal := rfl

@[simp] theorem nextSignal_fault_nil (signal : Option Word) : nextSignal .fault signal [] = none := rfl

/-- A run that leaves no signal ends the drive with `NoSignal` (R165). -/
theorem State.Returned.step_of_no_signal {s : State} {o : Orch} {e : ExitStatus} (h : s.Returned o e)
    (hv : nextSignal s.params.noOutput o.signal s.core.outq = none) :
    step s = .next (s.failDrive { o with st := o.st ++ [e] } (.noSignal s.before.length)) := by
  rw [h.step_eq, State.afterRun, hv]

/-! ### The three ways on -/

theorem State.moveOn_of_cons {s : State} {c : VmCore} {cs : List VmCore} (o : Orch) (ha : s.after = c :: cs) :
    s.moveOn o =
      { s with before := s.before ++ [s.core], core := c, after := cs, orch := some { o with waiting := false } } := by
  simp [State.moveOn, ha]

theorem State.moveOn_of_passEnds {s : State} {o : Orch} (ha : s.after = []) (he : o.passEnds = true) :
    s.moveOn o =
      { s with orch := some { o with netstatus := .done, waiting := false }, reply := o.signal.map Reply.signal } := by
  simp [State.moveOn, ha, he]

theorem State.moveOn_of_not_passEnds {s : State} {o : Orch} (ha : s.after = []) (he : ¬ o.passEnds = true) :
    s.moveOn o = { s.rewind with orch := some { o with st := [], pass := o.pass + 1, waiting := false } } := by
  simp [State.moveOn, ha, he]

/-- From the last core the selection goes back to the first one of the row. -/
theorem State.rewind_of_last {s : State} (ha : s.after = []) :
    ∃ c cs, s.cores = c :: cs ∧ s.rewind = { s with before := [], core := c, after := cs } := by
  obtain ⟨_, before, core, after, _, _, _, _⟩ := s
  obtain rfl : after = [] := ha
  cases before with
  | nil => exact ⟨core, [], rfl, rfl⟩
  | cons c cs => exact ⟨c, cs ++ [core], rfl, rfl⟩

theorem Orch.passEnds_of_linear {o : Orch} (h : o.topology = .linear) : o.passEnds = true := by
  simp [Orch.passEnds, h]

/-- A `Loop` drive's end test: every run of the pass returned `Terminated` (R168). -/
theorem Orch.passEnds_iff_of_loop {o : Orch} (h : o.topology = .loop) :
    o.passEnds = true ↔ ∀ x ∈ o.st, x = .terminated := by
  simp [Orch.passEnds, h]

section
variable {s : State} {o : Orch} {e : ExitStatus} {v : Word} (h : s.Returned o e)
  (hv : nextSignal s.params.noOutput o.signal s.core.outq = some v)
include h hv

/-- A run that leaves a signal records its exit status and the signal, and the drive goes on (R163, R165). -/
theorem State.Returned.step_of_signal :
    step s = .next (s.moveOn { o with st := o.st ++ [e], signal := some v }) := by
  rw [h.step_eq, State.afterRun, hv]

/-- However the drive goes on, the new signal is recorded, and nothing changes but the orchestrator, the selection and the
reply. -/
theorem State.Returned.step_keeps :
    ∃ t o', step s = .next t ∧ t.orch = some o' ∧ o'.signal = some v ∧ t.cores = s.cores ∧
      t.search = s.search ∧ t.cmds = s.cmds ∧ t.params = s.params := by
  obtain ⟨o', ho', hsignal⟩ := s.moveOn_signal { o with st := o.st ++ [e], signal := some v }
  exact ⟨_, o', h.step_of_signal hv, ho', hsignal, (s.moveOn_cores _).1, s.moveOn_rest _⟩

/-- After a core that is not the last of its pass the next one is selected (R166). -/
theorem State.Returned.step_to_next_core {c : VmCore} {cs : List VmCore} (ha : s.after = c :: cs) :
    step s = .next { s with
      before := s.before ++ [s.core], core := c, after := cs
      orch := some { o with st := o.st ++ [e], signal := some v, waiting := false } } := by
  rw [h.step_of_signal hv, State.moveOn_of_cons _ ha]

/-- After the last core, a pass that ends the drive leaves it in `Done` with the signal returned (R167, R168, R171). -/
theorem State.Returned.step_to_done (ha : s.after = [])
    (he : { o with st := o.st ++ [e], signal := some v }.passEnds = true) :
    step s = .next { s with
      orch := some { o with st := o.st ++ [e], signal := some v, netstatus := .done, waiting := false }
      reply := some (.signal v) } := by
  rw [h.step_of_signal hv, State.moveOn_of_passEnds ha he]
  rfl

/-- After the last core of any other pass the next pass begins at core 0 (R166, R168). -/
theorem State.Returned.step_to_next_pass (ha : s.after = [])
    (he : ¬ { o with st := o.st ++ [e], signal := some v }.passEnds = true) :
    ∃ c cs, s.cores = c :: cs ∧
      step s = .next { s with
        before := [], core := c, after := cs
        orch := some { o with st := [], signal := some v, pass := o.pass + 1, waiting := false } } := by
  obtain ⟨c, cs, hcores, hrewind⟩ := State.rewind_of_last ha
  refine ⟨c, cs, hcores, ?_⟩
  rw [h.step_of_signal hv, State.moveOn_of_not_passEnds ha he, hrewind]

end

/-! ### The search -/

theorem phaseSetWf_iff {phaseSet : List Word} : phaseSetWf phaseSet = true ↔ phaseSet.Nodup := decide_eq_true_iff

theorem State.startSearch_of_nodup {phaseSet : List Word} (h : phaseSet.Nodup) (s : State) (image : List Word)
    (topology : Topology) :
    s.startSearch image topology phaseSet = .next { s with
      search := some { image := image, topology := topology, todo := permutations phaseSet, best := none,
                       trial := false, homeBefore := s.before, homeCore := s.core, homeAfter := s.after,
                       homeOrch := s.orch }
      reply := none } := by
  rw [State.startSearch, if_pos (phaseSetWf_iff.mpr h)]

theorem State.startSearch_of_not_nodup {phaseSet : List Word} (h : ¬ phaseSet.Nodup) (s : State) (image : List Word)
    (topology : Topology) : s.startSearch image topology phaseSet = .refused .notAPhaseSet := by
  rw [State.startSearch, if_neg (mt phaseSetWf_iff.mp h)]

theorem State.searchStep_of_signal {s : State} {q : Search} {w : Word} (ht : q.trial = true)
    (hw : s.reply = some (.signal w)) :
    s.searchStep q = .next { s with search := some { q with best := some (betterSignal q.best w), trial := false } } := by
  simp [State.searchStep, ht, hw]

theorem State.searchStep_of_fault {s : State} {q : Search} {f : NetFault} (ht : q.trial = true)
    (hf : s.reply = some (.fault f)) : s.searchStep q = .next (s.endSearch q (some (.fault f))) := by
  simp [State.searchStep, ht, hf]

theorem State.searchStep_of_done {s : State} {q : Search} (ht : q.trial = false) (htd : q.todo = []) :
    s.searchStep q = .next (s.endSearch q (q.best.map Reply.signal)) := by
  simp [State.searchStep, ht, htd]

/-- The trial of a permutation that is not empty is accepted, so it drives the network just constructed (R163, R176). -/
theorem State.searchStep_of_nonempty_trial {s : State} {q : Search} {p : List Word} {ps : List (List Word)}
    (ht : q.trial = false) (htd : q.todo = p :: ps) (hp : p ≠ []) :
    s.searchStep q = .next
      { { s with search := some { q with todo := ps, trial := true } }.constructNet q.image q.topology p.length with
        orch := some { topology := q.topology, n := p.length, signal := some s.params.initialSignal, st := [],
                       netstatus := .driving, phases := p, pass := 0, waiting := false } } := by
  have hn : 1 ≤ p.length := List.length_pos_of_ne_nil hp
  rw [State.searchStep_of_trial ht htd]
  exact (State.startDrive_of_accepts (s := State.constructNet _ q.image q.topology p.length) rfl
    (Orch.accepts_iff.mpr ⟨rfl, hn, rfl⟩)).trans rfl

/-- The trial of the empty permutation has `N < 1` (R173). -/
theorem State.searchStep_of_empty_trial {s : State} {q : Search} {ps : List (List Word)} (ht : q.trial = false)
    (htd : q.todo = [] :: ps) :
    s.searchStep q = .next
      { { s with search := some { q with todo := ps, trial := true } }.constructNet q.image q.topology 0 with
        reply := some (.fault .configError) } := by
  rw [State.searchStep_of_trial ht htd]
  rfl

/-- The new best signal is the larger of the two, signed (R174). -/
theorem betterSignal_spec (best : Option Word) (w : Word) :
    w.toInt ≤ (betterSignal best w).toInt ∧ (∀ b, best = some b → b.toInt ≤ (betterSignal best w).toInt) ∧
      (betterSignal best w = w ∨ best = some (betterSignal best w)) := by
  cases best with
  | none => exact ⟨le_rfl, by simp, .inl rfl⟩
  | some b =>
    rcases lt_or_ge b.toInt w.toInt with hlt | hge
    · rw [show betterSignal (some b) w = w from if_pos hlt]
      exact ⟨le_rfl, by simpa using hlt.le, .inl rfl⟩
    · rw [show betterSignal (some b) w = b from if_neg hge.not_gt]
      exact ⟨hge, by simp, .inr rfl⟩

end Sys2Proof.Machine
end

section
/-! PROOFS. The feedback-network family (`48_feedback_network.md`): `construct` and `drive`, a core's run and its return,
the order of the runs and the end of a drive, and the permutation search. -/

namespace Sys2Proof.Machine

open Sys2Proof

/-- Settles O49: at rest the step is the command, and every core of the network is a clone of the one constructed. -/
theorem networkConstructMakesEqualCores : Obligations.NetworkConstructMakesEqualCores := by
  intro s image topology n ks hrest hk
  have hcores := State.constructNet_cores { s with cmds := ks } image topology n
  rw [step_of_command hrest hk]
  refine ⟨_, rfl, ?count, fun c hc => ?core, rfl, rfl, rfl, rfl, rfl, rfl⟩
  case count => rw [hcores, List.length_replicate]
  case core =>
    rw [hcores] at hc
    obtain rfl := List.eq_of_mem_replicate hc
    exact ⟨rfl, fun _ => VmCore.construct_read image, rfl, rfl, rfl, rfl, rfl, rfl⟩

/-- Settles O52: the step issues the run, which is `run`'s entry on the seeded core, status by status. -/
theorem runIsSeededWithPhaseOnceThenSignal : Obligations.RunIsSeededWithPhaseOnceThenSignal := by
  rintro s o v p _ ho hd hw hv hp rfl
  rw [← Orch.seeds_eq hv hp]
  have hissue (hr : s.core.status ≠ .running) := step_of_not_waiting hr ho hd hw
  refine ⟨fun hs => ?runs, fun hs hpol => ?noop, fun hs hpol => ?fault, fun hs => ?faulted⟩
  case runs =>
    rw [hissue (by rcases hs with hs | hs <;> simp [hs]), VmCore.startRun_of_ready_or_awaiting _ (by simpa using hs)]
    rfl
  case noop =>
    rw [hissue (by simp [hs]), hpol, VmCore.startRun_noop_of_terminated (by simpa using hs)]
    rfl
  case fault =>
    rw [hissue (by simp [hs]), hpol, VmCore.startRun_fault_of_terminated (by simpa using hs)]
    exact ⟨_, rfl, rfl, rfl, rfl⟩
  case faulted =>
    rw [hissue (by simp [hs]), VmCore.startRun_of_faulted _ (by simpa using hs)]
    exact ⟨_, rfl, hs, rfl, rfl⟩

/-- Settles O53: `NextSignal` in its three cases; with a signal the drive goes on by `State.Returned.step_keeps`. -/
theorem newSignalIsTheLastOutput : Obligations.NewSignalIsTheLastOutput := by
  intro s o e hret hsome
  refine ⟨fun out v hout => ?output, fun hout hpol => ?keep, fun hout hpol => ?fault⟩
  case output => exact hret.step_keeps (by rw [hout, nextSignal_append])
  case keep =>
    obtain ⟨w, hw⟩ := Option.isSome_iff_exists.mp hsome
    rw [hw]
    exact hret.step_keeps (by rw [hout, hpol, nextSignal_keep_nil, hw])
  case fault => exact ⟨_, hret.step_of_no_signal (by rw [hout, hpol, nextSignal_fault_nil]), rfl⟩

/-- Settles O54: of the actions of a driven network only the return of a run that has not faulted can move the
selection. -/
theorem coresRunInSerialOrder : Obligations.CoresRunInSerialOrder := by
  intro s o ho hd
  refine ⟨fun t ht hmove => ?moves, fun e v c cs hret ha hv => hret.step_to_next_core hv ha⟩
  case moves =>
    by_cases hr : s.core.status = .running
    · obtain ⟨c, hc⟩ := step_running_next hr
      obtain rfl := Host.Outcome.next.inj (hc.symm.trans ht)
      exact absurd rfl hmove
    · rw [step_of_driving hr ho hd] at ht
      rcases State.orchStep_eq_next ht with rfl | ⟨f, rfl⟩ | ⟨hw, hs, e, rfl⟩
      · exact absurd rfl hmove
      · exact absurd rfl hmove
      · obtain ⟨hcores, hbefore⟩ := s.afterRun_cores o e
        exact ⟨hw, hs, hcores, hbefore.resolve_left fun heq => hmove (congrArg List.length heq)⟩

/-- Settles O55: a `Linear` pass always ends the drive. -/
theorem linearDriveEndsAfterOnePass : Obligations.LinearDriveEndsAfterOnePass :=
  fun _ _ _ _ hret htop ha hv => ⟨_, hret.step_to_done hv ha (Orch.passEnds_of_linear htop), rfl⟩

/-- Settles O56: the three ways on, told apart by the core's place and the end test of `Loop`. -/
theorem loopDriveEndsWhenAllTerminated : Obligations.LoopDriveEndsWhenAllTerminated := by
  intro s o e v hret htop hv
  have hends : { o with st := o.st ++ [e], signal := some v }.passEnds = true ↔
      e = .terminated ∧ ∀ x ∈ o.st, x = .terminated := by
    simp [Orch.passEnds_iff_of_loop, htop, or_imp, forall_and, and_comm]
  refine ⟨fun c cs ha => ?nextCore, fun ha hall => ?done, fun ha hnot => ?nextPass⟩
  case nextCore => exact hret.step_to_next_core hv ha
  case done => exact ⟨_, hret.step_to_done hv ha (hends.mpr hall), rfl, rfl⟩
  case nextPass => exact hret.step_to_next_pass hv ha (mt hends.mp hnot)

/-- Settles O58: the list is `permutations`, a trial takes its head, and no action of a driven network touches the
search. -/
theorem searchTriesEveryPermutation : Obligations.SearchTriesEveryPermutation := by
  refine ⟨fun s image topology phaseSet ks hrest hk => ?starts, fun s q hr hnd hq => ?trials,
    fun s t hbusy h => ?drives⟩
  case starts =>
    rw [step_of_command hrest hk]
    refine ⟨fun hset => ⟨permutations phaseSet, ?_, fun p => mem_permutations, length_permutations phaseSet⟩,
      fun hset => State.startSearch_of_not_nodup hset ..⟩
    exact State.startSearch_of_nodup hset { s with cmds := ks } image topology
  case trials =>
    rw [step_of_search hr hnd hq]
    refine ⟨fun p ps ht htd hp => ?_, fun w ht hw => ⟨_, State.searchStep_of_signal ht hw, rfl, rfl⟩⟩
    exact ⟨_, _, State.searchStep_of_nonempty_trial ht htd hp, rfl, rfl, rfl, rfl⟩
  case drives =>
    by_cases hr : s.core.status = .running
    · obtain ⟨c, hc⟩ := step_running_next hr
      obtain rfl := Host.Outcome.next.inj (hc.symm.trans h)
      exact ⟨rfl, rfl⟩
    · obtain ⟨o, ho, hd⟩ := hbusy.resolve_left hr
      rw [step_of_driving hr ho hd] at h
      rcases State.orchStep_eq_next h with rfl | ⟨f, rfl⟩ | ⟨_, _, e, rfl⟩
      · exact ⟨rfl, rfl⟩
      · exact ⟨rfl, rfl⟩
      · obtain ⟨hsearch, hcmds, _⟩ := s.afterRun_rest o e
        exact ⟨hsearch, hcmds⟩

/-- Settles O59: a trial constructs its network afresh, and `drive` accepts every permutation but the empty one. -/
theorem trialsStartOnFreshCores : Obligations.TrialsStartOnFreshCores := by
  intro s q p ps hr hnd hq ht htd
  rw [step_of_search hr hnd hq]
  refine ⟨fun hp => ?drives, ?refused⟩
  case drives =>
    refine ⟨_, State.searchStep_of_nonempty_trial ht htd hp, ?_, rfl, rfl, rfl, rfl, rfl, rfl⟩
    have hcores := State.constructNet_cores { s with search := some { q with todo := ps, trial := true } } q.image
      q.topology p.length
    rwa [Nat.max_eq_right (List.length_pos_of_ne_nil hp)] at hcores
  case refused =>
    rintro rfl
    refine ⟨_, State.searchStep_of_empty_trial ht htd, rfl, ?_, rfl, rfl, rfl⟩
    rintro _ ⟨⟩
    simp

/-- Settles O60: the search's step by what it finds: a signal (`betterSignal_spec`), a fault, or no permutation left. -/
theorem searchKeepsTheLargestSignal : Obligations.SearchKeepsTheLargestSignal := by
  intro s q hr hnd hq
  rw [step_of_search hr hnd hq]
  refine ⟨fun w ht hw => ?signal, fun f ht hf => State.searchStep_of_fault ht hf, fun w ht htd hbest => ?returns⟩
  case signal => exact ⟨_, State.searchStep_of_signal ht hw, betterSignal_spec q.best w⟩
  case returns =>
    rw [State.searchStep_of_done ht htd, hbest]
    rfl

/-- Settles O50: each of the three causes fails `drive`'s check. -/
theorem driveRefusesBadConfigurations : Obligations.DriveRefusesBadConfigurations := by
  intro s o phases ks hrest ho hk hbad
  have hno : ¬ o.accepts phases = true := by
    rw [Orch.accepts_iff]
    rintro ⟨hbuilt, hn, hlen⟩
    rcases hbad with h | h | h
    · exact h hlen
    · exact absurd hn h.not_ge
    · exact h hbuilt
  rw [step_of_command hrest hk]
  exact State.startDrive_of_not_accepts (s := { s with cmds := ks }) ho hno

/-- Settles O51: the drive is accepted, and `Orch.start` sets the sequencer's registers. -/
theorem driveStartsWithTheInitialSignal : Obligations.DriveStartsWithTheInitialSignal := by
  intro s o phases ks hrest ho hk hlen hn hbuilt
  rw [step_of_command hrest hk]
  exact ⟨_, State.startDrive_of_accepts (s := { s with cmds := ks }) ho (Orch.accepts_iff.mpr ⟨hbuilt, hn, hlen⟩),
    rfl, rfl, rfl, rfl, rfl, rfl, rfl, rfl⟩

/-- Settles O57 by `step_of_faulted_run`. -/
theorem coreFaultEndsTheDrive : Obligations.CoreFaultEndsTheDrive :=
  fun _ _ _ ho hd hw hs hc => ⟨_, step_of_faulted_run ho hd hw hs hc, rfl⟩

end Sys2Proof.Machine
end

section
/-! SUPPORT. The faults of the operands, one rule for each shared step and stage: a step whose operand or target fails is
that fault, and the stages before it have gone on (R88, R199). -/

namespace Sys2Proof.Machine

open Sys2Proof

section
variable {lim : Option Nat} {c : VmCore} {op : Opcode} {a b d : Operand} {x y : Word} {ea : Int} {e : Cause}

theorem VmCore.storeBinary_of_first_error (hd : effectiveAddress c.rb d = some ea)
    (ha : c.readOperand lim a = .error e) (f : Word → Word → Except Cause Word) :
    c.storeBinary lim op a b d f = .error e := by
  simp [VmCore.storeBinary, targetAddress_eq_ok.mpr hd, ha]

theorem VmCore.storeBinary_of_second_error (hd : effectiveAddress c.rb d = some ea)
    (ha : c.readOperand lim a = .ok x) (hb : c.readOperand lim b = .error e)
    (f : Word → Word → Except Cause Word) : c.storeBinary lim op a b d f = .error e := by
  simp [VmCore.storeBinary, targetAddress_eq_ok.mpr hd, ha, hb]

/-- A bad write target comes before the opcode's own result `f` and before `Advance`. -/
theorem VmCore.storeBinary_of_target_error (hd : effectiveAddress c.rb d = some ea)
    (ha : c.readOperand lim a = .ok x) (hb : c.readOperand lim b = .ok y) (hk : checkAddr lim ea = .error e)
    (f : Word → Word → Except Cause Word) : c.storeBinary lim op a b d f = .error e := by
  simp [VmCore.storeBinary, targetAddress_eq_ok.mpr hd, ha, hb, hk]

theorem VmCore.branch_of_first_error (ha : c.readOperand lim a = .error e) (taken : Word → Bool) :
    c.branch lim op a b taken = .error e := by
  simp [VmCore.branch, ha]

theorem VmCore.branch_of_second_error (ha : c.readOperand lim a = .ok x) (hb : c.readOperand lim b = .error e)
    (taken : Word → Bool) : c.branch lim op a b taken = .error e := by
  simp [VmCore.branch, ha, hb]

theorem VmCore.output_of_operand_error (ha : c.readOperand lim a = .error e) : c.output lim a = .error e := by
  simp [VmCore.output, ha]

theorem VmCore.adjustBase_of_operand_error (ha : c.readOperand lim a = .error e) :
    c.adjustBase lim a = .error e := by
  simp [VmCore.adjustBase, ha]

/-- A bad target of IN comes before the input test (R110). -/
theorem VmCore.input_of_target_error (hd : effectiveAddress c.rb d = some ea) (hk : checkAddr lim ea = .error e) :
    c.input lim d = .error e := by
  simp [VmCore.input, targetAddress_eq_ok.mpr hd, hk]

end

end Sys2Proof.Machine
end

section
/-! PROOFS. The exceptions family (`60_exceptions.md`): which of several failing operands is reported. -/

namespace Sys2Proof.Machine

open Sys2Proof

/-- Settles O15: each instruction is one of the shared steps, whose rule for the failing stage gives the fault. -/
theorem firstFailingOperandIsReported : Obligations.FirstFailingOperandIsReported := by
  intro s a b d i ea f hd
  refine ⟨fun ha hi => ?first, fun x ha hb hi => ?second, fun x y ha hb hk hi => ?target, fun hk hi => ?inTarget⟩ <;>
    refine exec_reports_of_coreExec_error ?_
  case first =>
    rcases hi with rfl | rfl | rfl | rfl | rfl | rfl | rfl | rfl
    iterate 4 exact VmCore.storeBinary_of_first_error hd ha _
    iterate 2 exact VmCore.branch_of_first_error ha _
    · exact VmCore.output_of_operand_error ha
    · exact VmCore.adjustBase_of_operand_error ha
  case second =>
    rcases hi with rfl | rfl | rfl | rfl | rfl | rfl
    iterate 4 exact VmCore.storeBinary_of_second_error hd ha hb _
    iterate 2 exact VmCore.branch_of_second_error ha hb _
  case target =>
    rcases hi with rfl | rfl | rfl | rfl
    iterate 4 exact VmCore.storeBinary_of_target_error hd ha hb hk _
  case inTarget =>
    subst hi
    exact VmCore.input_of_target_error hd hk

end Sys2Proof.Machine
end

section
/-! PROOFS. The reset and hazards family (`70_reset_and_hazards.md`): the state the block starts in. -/

namespace Sys2Proof.Machine

open Sys2Proof

/-- The core before its construct is sound: nothing is listed, no cause is valid, and it is `Ready`. -/
theorem VmCore.reset_sound : VmCore.reset.Sound :=
  ⟨⟨.nil, by simp [VmCore.reset], by simp [VmCore.reset]⟩, by simp [VmCore.reset], fun _ => rfl⟩

/-- Settles O45: the one core is sound, and there is no network and no search. -/
theorem resetSatisfiesTheInvariant : Obligations.ResetSatisfiesTheInvariant :=
  inv_none (by simp [State.reset]) VmCore.reset_sound (by simp [State.reset]) rfl rfl

end Sys2Proof.Machine
end
